-- ==== Sys2Proof/Word.lean ====
section
/-! DEFINITION. The words of HCE: bytes of the NV memory, raw 16-bit temperatures, 64-bit command and
response words (spec/00_scope.md section 5, spec/10_state.md R20, spec/30_encoding.md R81, R86). -/

namespace Sys2Proof

/-- One byte of the NV memory (R51). -/
abbrev Byte := BitVec 8

/-- The 16 bits of a raw fixed-point temperature, two's complement (R20). The integer they stand for is
`sext16` of them, in Machine/Operands.lean. -/
abbrev Fx := BitVec 16

/-- A command word (R81) or a response word (R86). -/
abbrev Word64 := BitVec 64

end Sys2Proof
end

