-- ==== Sys2Proof/Config.lean ====
section
/-! DEFINITION. The static configuration constants of HCE (spec/00_scope.md R8) as one record, the reference
configuration `REFCFG`, and the free values: constants without a body, about which nothing can be proved. -/

namespace Sys2Proof

/-- The static configuration constants of R8: fixed when the block is built, not writable by any event, not
affected by reset. Temperatures, steps and bounds are raw values, kept as integers because R8 and R9 compare
them as integers. R9 and R8's ranges are `Cfg.Wf` in WellFormed.lean. -/
structure Cfg where
  /-- `F`, the number of fractional bits of every temperature. -/
  fracBits : Nat
  /-- `N`, the number of channels. -/
  nCh : Nat
  /-- `MARKER_ADDR`, the NV address of the marker byte. -/
  markerAddr : Nat
  /-- `MARKER_VALUE`, the sentinel. -/
  markerValue : Byte
  /-- `BLOCK_BASE`, the NV address of block 0. -/
  blockBase : Nat
  /-- `BLOCK_SIZE`, NV bytes from one block to the next. -/
  blockSize : Nat
  /-- `NV_SIZE`, bytes of NV memory. -/
  nvSize : Nat
  /-- `T_MIN`, the global lower bound of both thresholds. -/
  tMin : Int
  /-- `T_MAX`, the global upper bound of both thresholds. -/
  tMax : Int
  /-- `T_STEP`, the threshold adjust step. -/
  tStep : Int
  /-- `OFS_MIN`, the lower bound of the offset. -/
  ofsMin : Int
  /-- `OFS_MAX`, the upper bound of the offset. -/
  ofsMax : Int
  /-- `OFS_STEP`, the offset adjust step. -/
  ofsStep : Int
  /-- `DEFAULT_ON`, of the default pair. -/
  defaultOn : Int
  /-- `DEFAULT_OFF`, of the default pair. -/
  defaultOff : Int
  /-- `OFFSET_INIT[i]`, the offset of each channel after reset, one entry per channel. -/
  offsetInit : List Int
  /-- `DISPLAY_FLOAT`, the floating format of the display value: "OPEN, used by no rule". `none` is "not set",
  `some p` a binary format with `p` bits of significand (log entry 22). -/
  displayFloat : Option Nat
deriving DecidableEq, Repr

/-- `REFCFG`, the reference column of R8. -/
def Cfg.ref : Cfg where
  fracBits := 4
  nCh := 8
  markerAddr := 0
  markerValue := 0x5A
  blockBase := 2
  blockSize := 4
  nvSize := 1024
  tMin := -320
  tMax := 800
  tStep := 8
  ofsMin := -32
  ofsMax := 32
  ofsStep := 1
  defaultOn := 800
  defaultOff := -320
  offsetInit := List.replicate 8 0
  displayFloat := none

namespace Config

/-- A free 16-bit value, `unspecified(fx)`: the draw `serial` of the run, at `slot`. It stands for the `V0` of an
overflowing `FADD` (U1), for `reading`, `coolOn` and `coolOff` after `RESET` (R221, U4) and for a 16-bit register
whose content a power loss has lost (R61). Safe: nothing constrains it. -/
opaque freeFx : (serial slot : Nat) → BitVec 16

/-- A free bit, `unspecified(ON/OFF)`: the draw `serial` of the run, at `slot`. It stands for `act[i]` after an
out-of-range corrected reading (R182, U2) and for a one-bit register that a power loss has lost (R61). Safe. -/
opaque freeBit : (serial slot : Nat) → Bool

/-- The free value of `toFixed(d, F)` where the rounded value is out of range (R116, U3), a function of the operands
of that reference function. Safe. -/
opaque freeToFixed : (d : Rat) → (fracBits : Nat) → BitVec 16

end Config

end Sys2Proof
end

