-- ==== Sys2Proof/Syntax.lean ====
section
/-! DEFINITION. The 17 commands of HCE (spec/30_encoding.md R84; spec/opcode_table.json), one constructor per row. -/

namespace Sys2Proof

/-- A decoded command. `ch` is the 8-bit channel field, read unsigned (R83); it may name no channel (`ch >= N`), to
which each command of formats `CH` and `CHAB` answers `ERR_BAD_CHANNEL` (R85). A temperature operand is the raw
16-bit field, read with `sext16` by the command's meaning (R83). -/
inductive Instr where
  /-- `FADD a, b` (R111): `a` is field A, `b` field B. -/
  | fadd (a b : Fx)
  /-- `FCMP a, b` (R112): `a` is field A, `b` field B. -/
  | fcmp (a b : Fx)
  /-- `FCLAMP v, lo, hi` (R113): `v` is field A, `lo` field B, `hi` field C. -/
  | fclamp (v lo hi : Fx)
  /-- `ST.ISINIT` (R131). -/
  | stIsinit
  /-- `ST.INITDEF` (R133). -/
  | stInitdef
  /-- `ST.RDTHR ch` (R134). -/
  | stRdthr (ch : Byte)
  /-- `ST.WRTHR ch, on, off` (R136): `on` is field A, `off` field B. -/
  | stWrthr (ch : Byte) (on off : Fx)
  /-- `ADJ.ON.INC ch` (R155). -/
  | adjOnInc (ch : Byte)
  /-- `ADJ.ON.DEC ch` (R156). -/
  | adjOnDec (ch : Byte)
  /-- `ADJ.OFF.INC ch` (R157). -/
  | adjOffInc (ch : Byte)
  /-- `ADJ.OFF.DEC ch` (R158). -/
  | adjOffDec (ch : Byte)
  /-- `ADJ.OFS.INC ch` (R159). -/
  | adjOfsInc (ch : Byte)
  /-- `ADJ.OFS.DEC ch` (R160). -/
  | adjOfsDec (ch : Byte)
  /-- `GET.READING ch` (R161). -/
  | getReading (ch : Byte)
  /-- `GET.COOLON ch` (R162). -/
  | getCoolon (ch : Byte)
  /-- `GET.COOLOFF ch` (R163). -/
  | getCooloff (ch : Byte)
  /-- `GET.OFFSET ch` (R164). -/
  | getOffset (ch : Byte)
deriving DecidableEq, Repr

end Sys2Proof
end

