-- ==== Sys2Proof/WellFormed.lean ====
section
/-! DEFINITION. The static checks: which configurations are configurations of HCE (spec/00_scope.md R8, R9) and which
commands name a channel that exists (spec/30_encoding.md R83). -/

namespace Sys2Proof

/-- R8's ranges and R9's constraints. "A configuration that breaks one of these is not a configuration of HCE and no
rule speaks of it" (R9). -/
def Cfg.wf (c : Cfg) : Bool := decide (
  c.fracBits ≤ 15 ∧ (1 ≤ c.nCh ∧ c.nCh ≤ 256) ∧ (1 ≤ c.nvSize ∧ c.nvSize ≤ 65536) ∧
  c.markerAddr < c.nvSize ∧ c.blockBase < c.nvSize ∧ 4 ≤ c.blockSize ∧
  (-32768 ≤ c.tMin ∧ c.tMin < c.tMax ∧ c.tMax ≤ 32767) ∧
  (1 ≤ c.tStep ∧ c.tStep ≤ 32767) ∧
  (-32768 ≤ c.ofsMin ∧ c.ofsMin ≤ c.ofsMax ∧ c.ofsMax ≤ 32767) ∧
  (1 ≤ c.ofsStep ∧ c.ofsStep ≤ 32767 ∧ c.ofsStep < c.tStep) ∧
  (c.tMin ≤ c.defaultOff ∧ c.defaultOff < c.defaultOn ∧ c.defaultOn ≤ c.tMax) ∧
  (c.offsetInit.length = c.nCh ∧ ∀ x ∈ c.offsetInit, c.ofsMin ≤ x ∧ x ≤ c.ofsMax) ∧
  (c.markerAddr < c.blockBase ∨ c.blockBase + c.nCh * c.blockSize ≤ c.markerAddr) ∧
  c.blockBase + c.nCh * c.blockSize ≤ c.nvSize)

/-- The constants satisfy R8 and R9. -/
abbrev Cfg.Wf (c : Cfg) : Prop := c.wf = true

/-- The channel field of a command, for the formats `CH` and `CHAB` that use it (R82). -/
def Instr.channel? : Instr → Option Byte
  | .fadd _ _ => none
  | .fcmp _ _ => none
  | .fclamp _ _ _ => none
  | .stIsinit => none
  | .stInitdef => none
  | .stRdthr ch => some ch
  | .stWrthr ch _ _ => some ch
  | .adjOnInc ch => some ch
  | .adjOnDec ch => some ch
  | .adjOffInc ch => some ch
  | .adjOffDec ch => some ch
  | .adjOfsInc ch => some ch
  | .adjOfsDec ch => some ch
  | .getReading ch => some ch
  | .getCoolon ch => some ch
  | .getCooloff ch => some ch
  | .getOffset ch => some ch

/-- A command is well-formed for `n` channels when it is "valid", in R83's word: "a command of format `CH` or
`CHAB` is valid only for `ch < N`". -/
def Instr.wellFormed (n : Nat) (i : Instr) : Bool :=
  match i.channel? with
  | none => true
  | some ch => decide (ch.toNat < n)

end Sys2Proof
end

