-- ==== Sys2Proof/Decode.lean ====
section
/-! DEFINITION. The command word (spec/30_encoding.md R81 to R85): its fields, the five formats with their masks, the
opcode table, the decoder and, from the same table, the encoder. -/

namespace Sys2Proof

/-- Bits 63:56, `op` (R81). -/
def opField (w : Word64) : Byte := w.extractLsb' 56 8

/-- Bits 55:48, `ch` (R81). -/
def chField (w : Word64) : Byte := w.extractLsb' 48 8

/-- Bits 47:32, `C` (R81). -/
def cField (w : Word64) : Fx := w.extractLsb' 32 16

/-- Bits 31:16, `B` (R81). -/
def bField (w : Word64) : Fx := w.extractLsb' 16 16

/-- Bits 15:0, `A` (R81). -/
def aField (w : Word64) : Fx := w.extractLsb' 0 16

/-- `w = {op, ch, C, B, A}` (R81). -/
def packWord (op ch : Byte) (c b a : Fx) : Word64 := op ++ ch ++ c ++ b ++ a

/-- The five formats of R82. -/
inductive Format where
  /-- Uses `op`. -/
  | z
  /-- Uses `op`, `ch`. -/
  | ch
  /-- Uses `op`, `A`, `B`. -/
  | ab
  /-- Uses `op`, `A`, `B`, `C`. -/
  | abc
  /-- Uses `op`, `ch`, `A`, `B`. -/
  | chab
deriving DecidableEq, Repr

/-- The mask of a format over the 64-bit word (R84): `op` and every reserved field. -/
def Format.mask : Format → Word64
  | .z => 0xFFFFFFFFFFFFFFFF
  | .ch => 0xFF00FFFFFFFFFFFF
  | .ab => 0xFFFFFFFF00000000
  | .abc => 0xFFFF000000000000
  | .chab => 0xFF00FFFF00000000

/-- One row of the opcode map: the opcode, the format and the command that a word of the row stands for. -/
structure OpRow where
  mnemonic : String
  op : Byte
  format : Format
  build : Word64 → Instr

/-- "in each case `match = op << 56`" (R84). -/
def OpRow.matchWord (r : OpRow) : Word64 := packWord r.op 0 0 0 0

/-- "A word selects a row when `(w AND mask) == match`" (R84). -/
def OpRow.selects (r : OpRow) (w : Word64) : Bool := (w &&& r.format.mask) == r.matchWord

/-- The fixed-point rows of R84. -/
def fixedPointRows : List OpRow := [
  ⟨"FADD", 0x01, .ab, fun w => .fadd (aField w) (bField w)⟩,
  ⟨"FCMP", 0x02, .ab, fun w => .fcmp (aField w) (bField w)⟩,
  ⟨"FCLAMP", 0x03, .abc, fun w => .fclamp (aField w) (bField w) (cField w)⟩]

/-- The store rows of R84. -/
def storeRows : List OpRow := [
  ⟨"ST.ISINIT", 0x10, .z, fun _ => .stIsinit⟩,
  ⟨"ST.INITDEF", 0x11, .z, fun _ => .stInitdef⟩,
  ⟨"ST.RDTHR", 0x12, .ch, fun w => .stRdthr (chField w)⟩,
  ⟨"ST.WRTHR", 0x13, .chab, fun w => .stWrthr (chField w) (aField w) (bField w)⟩]

/-- The adjust rows of R84. -/
def adjustRows : List OpRow := [
  ⟨"ADJ.ON.INC", 0x20, .ch, fun w => .adjOnInc (chField w)⟩,
  ⟨"ADJ.ON.DEC", 0x21, .ch, fun w => .adjOnDec (chField w)⟩,
  ⟨"ADJ.OFF.INC", 0x22, .ch, fun w => .adjOffInc (chField w)⟩,
  ⟨"ADJ.OFF.DEC", 0x23, .ch, fun w => .adjOffDec (chField w)⟩,
  ⟨"ADJ.OFS.INC", 0x24, .ch, fun w => .adjOfsInc (chField w)⟩,
  ⟨"ADJ.OFS.DEC", 0x25, .ch, fun w => .adjOfsDec (chField w)⟩]

/-- The accessor rows of R84. -/
def accessorRows : List OpRow := [
  ⟨"GET.READING", 0x30, .ch, fun w => .getReading (chField w)⟩,
  ⟨"GET.COOLON", 0x31, .ch, fun w => .getCoolon (chField w)⟩,
  ⟨"GET.COOLOFF", 0x32, .ch, fun w => .getCooloff (chField w)⟩,
  ⟨"GET.OFFSET", 0x33, .ch, fun w => .getOffset (chField w)⟩]

/-- The opcode map of R84: seventeen rows. -/
def opTable : List OpRow := fixedPointRows ++ storeRows ++ adjustRows ++ accessorRows

/-- Step 1 of R85: the command of the row that the word selects; `none` is an illegal word (an unknown `op`, or a
reserved field that is not 0), to which HCE answers `ERR_ILLEGAL`. -/
def decode (w : Word64) : Option Instr := (opTable.find? (·.selects w)).map (·.build w)

/-- The word of a command, from the opcode values and field places of R81, R82, R84; reserved fields are 0. -/
def encode : Instr → Word64
  | .fadd a b => packWord 0x01 0 0 b a
  | .fcmp a b => packWord 0x02 0 0 b a
  | .fclamp v lo hi => packWord 0x03 0 hi lo v
  | .stIsinit => packWord 0x10 0 0 0 0
  | .stInitdef => packWord 0x11 0 0 0 0
  | .stRdthr ch => packWord 0x12 ch 0 0 0
  | .stWrthr ch on off => packWord 0x13 ch 0 off on
  | .adjOnInc ch => packWord 0x20 ch 0 0 0
  | .adjOnDec ch => packWord 0x21 ch 0 0 0
  | .adjOffInc ch => packWord 0x22 ch 0 0 0
  | .adjOffDec ch => packWord 0x23 ch 0 0 0
  | .adjOfsInc ch => packWord 0x24 ch 0 0 0
  | .adjOfsDec ch => packWord 0x25 ch 0 0 0
  | .getReading ch => packWord 0x30 ch 0 0 0
  | .getCoolon ch => packWord 0x31 ch 0 0 0
  | .getCooloff ch => packWord 0x32 ch 0 0 0
  | .getOffset ch => packWord 0x33 ch 0 0 0

/-- The decoder on a word given as a number, numbered as spec/opcode_table.json numbers it. Words are delivered whole
(R89), so no byte order enters; bits at or above `nbits` are 0. -/
def decodeTableWord (nbits w : Nat) : Option Instr :=
  if nbits ≤ 64 then decode (BitVec.ofNat 64 (w % 2 ^ nbits)) else none

end Sys2Proof
end

