-- ==== Sys2Proof/Machine/State.lean ====
section
/-! DEFINITION. The state of HCE as plain data (spec/10_state.md, spec/20_memory.md), the events its environment offers
(spec/00_scope.md R7), the outcomes of a command, and the state at the first power-on. -/

namespace Sys2Proof.Machine

/-- The two states of a channel's hysteresis machine (R26, R150). As a bit, ON is 1 and OFF is 0. -/
inductive Act where
  | off
  | on
deriving DecidableEq, Repr

/-- `phase` (R28). -/
inductive Phase where
  /-- From `RESET` until the boot sequence has run: no `CMD` and no `TICK` is taken. -/
  | boot
  /-- After boot: events are taken. -/
  | run
deriving DecidableEq, Repr

/-- The two power states of R212. -/
inductive Power where
  | unpowered
  | powered
deriving DecidableEq, Repr

/-- The six registers of one channel (R21). -/
structure Channel where
  /-- `reading[i]`, the last acquired reading (R22). -/
  reading : Fx
  /-- `rdValid[i]`: the latest `TICK` acquired a valid sample (R23). -/
  rdValid : Bool
  /-- `offset[i]` (R24). -/
  offset : Fx
  /-- `coolOn[i]`, the working copy of the upper threshold (R25). -/
  coolOn : Fx
  /-- `coolOff[i]`, the working copy of the lower threshold (R25). -/
  coolOff : Fx
  /-- `act[i]`, the state of the hysteresis machine (R26). -/
  act : Act
deriving DecidableEq, Repr

/-- One lane of the sample port (R34): a 16-bit reading or a sensor fault. -/
inductive Lane where
  | valid (r : Fx)
  | fault
deriving DecidableEq, Repr

/-- The operation that a power loss interrupts (R61). -/
inductive Operation where
  /-- "A power loss between events is `POWERLOSS(0)` of an empty operation." -/
  | idle
  /-- The boot sequence of R222. -/
  | boot
  /-- A `TICK`, cut after `acts` of its `ACT` events (R186). -/
  | tick (sample : List Lane) (acts : Nat)
  /-- The command `CMD(w)`. -/
  | cmd (w : Word64)
deriving DecidableEq, Repr

/-- The events of R7. -/
inductive Event where
  /-- `RESET`: power-on or reset (R220). -/
  | reset
  /-- `TICK(sample)`: one sampling period elapsed (R34, R180). -/
  | tick (sample : List Lane)
  /-- `CMD(w)`: one command word from the host (R35, R80). -/
  | cmd (w : Word64)
  /-- `POWERLOSS(k)`: supply lost after `k` NV writes of the operation in progress, `during` (R61). -/
  | powerLoss (during : Operation) (k : Nat)
deriving DecidableEq, Repr

/-- One actuator command `ACT(i, b)` of the output trace (R33, R184). -/
structure ActEvent where
  channel : Nat
  command : Act
deriving DecidableEq, Repr

/-- The NV memory (R51), as the list of the bytes that differ from what an unlisted address reads as (`Mem.unlisted` in
Machine/Ops.lean), addresses strictly rising (`Mem.Wf`). -/
abbrev Mem := List Host.Cell

/-- The five status codes that HCE produces (R201). -/
inductive Status where
  | ok
  | errNotInit
  | errOutOfRange
  | errIllegal
  | errBadChannel
deriving DecidableEq, Repr

/-- The eight flag bits of a response have six names (R87). -/
inductive Flag where
  | lt
  | eq
  | gt
  | ovf
  | valid
  | init
deriving DecidableEq, Repr

/-- One primitive NV write (R54, R55). -/
inductive NvWrite where
  /-- `MemWrite(a, 1, v)`. -/
  | byte (a : Nat) (v : Byte)
  /-- `MemWrite(a, 2, v)`. -/
  | field (a : Nat) (v : Fx)
deriving DecidableEq, Repr

/-- The state of HCE and, beside it, the environment's side of its ports. `cfg` holds the constants of R8, which no
event writes. `trace` is the output trace of R33. The model's own fields (INVENTORY.md): `inbox`, the events offered and
not yet taken, `responses`, the response words delivered, oldest first, and `serial`, the number of the next draw. -/
structure State where
  cfg : Cfg
  channels : List Channel
  phase : Phase
  power : Power
  nv : Mem
  trace : List ActEvent
  responses : List Word64
  inbox : List Event
  serial : Nat
deriving DecidableEq, Repr

/-- What one command does when it runs to completion: the sequence `w_1 .. w_W` of its NV writes (R61), the channel
registers after it, the draw counter after it, and its one response word (R35). A power loss cuts the first of these
and loses the others. -/
structure Transaction where
  writes : List NvWrite
  channels : List Channel
  serial : Nat
  response : Word64
deriving DecidableEq, Repr

/-- HCE has no fault: it "raises no trap, exception or interrupt towards any agent" (R206) and "no condition in this
core is fatal" (R206). The type is empty. -/
inductive Fault
deriving DecidableEq, Repr

/-- Why `step` answers no next state. No command's meaning raises any of these: each is raised by `step`, for an input
that the spec says is no input of HCE. All are safe. -/
inductive Refusal where
  /-- Raised by an arm of `exec` that has no meaning yet (there is none). Safe. -/
  | notModelled (mnemonic : String)
  /-- Raised by `step`: the constants break R8 or R9, and "no rule speaks of it" (U12: refuse). Safe. -/
  | notAConfiguration
  /-- Raised by `step`: an event other than `RESET` is offered while there is no power; "nothing else can happen while
  there is no power" (R61). Safe. -/
  | eventWithoutPower
  /-- Raised by `step`: a `TICK` whose sample vector does not have `N` lanes (R34). Safe. -/
  | sampleLength
  /-- Raised by `step`: a `POWERLOSS(k)` with `k > W`, or after more than `N` `ACT` events (R61, R186). Safe. -/
  | powerLossCount
  /-- Raised by `step`: a `POWERLOSS` that claims to interrupt a boot when none is in progress (R61). Safe. -/
  | operationNotInProgress
deriving DecidableEq, Repr

/-- The channel registers at the first power-on, before boot (R38, R221): `act` OFF, `rdValid` 0, `offset` at
`OFFSET_INIT[i]`. `reading`, `coolOn` and `coolOff` are unspecified there; DESIGN CHOICE 0 (log entries 4, 5). -/
def Channel.atReset (offset : Int) : Channel :=
  { reading := 0, rdValid := false, offset := BitVec.ofInt 16 offset, coolOn := 0, coolOff := 0, act := .off }

/-- The machine right after reset: R38's column "Before boot" on a device that was never powered before, in the
reference configuration (log entries 1, 3, 6). Its first step is the boot sequence. -/
def State.reset : State where
  cfg := Cfg.ref
  channels := Cfg.ref.offsetInit.map Channel.atReset
  phase := .boot
  power := .powered
  nv := []
  trace := []
  responses := []
  inbox := []
  serial := 0

end Sys2Proof.Machine
end

