-- ==== Sys2Proof/Machine/Operands.lean ====
section
/-! DEFINITION. Operands (spec/00_scope.md section 5, spec/30_encoding.md R83): the reading and the writing of a 16-bit
field, and the channel number. A command has no other operand form. -/

namespace Sys2Proof.Machine

/-- `sext_16(u)`: the integer that a 16-bit field stands for (spec/00_scope.md section 5, R20). -/
def sext16 (u : Fx) : Int := u.toInt

/-- `zext_16(v)`: the 16-bit field of an `fx` (spec/00_scope.md section 5). It is applied to integers in range only. -/
def zext16 (v : Int) : Fx := BitVec.ofInt 16 v

/-- `inrange(x)`: `INT16_MIN <= x <= INT16_MAX` (spec/00_scope.md section 5). -/
def inrange (x : Int) : Bool := decide (-32768 ≤ x) && decide (x ≤ 32767)

/-- "`ch` is read as an unsigned integer" (R83). -/
def channelIndex (ch : Byte) : Nat := ch.toNat

/-- ON and OFF as bits: ON is 1, OFF is 0 (spec/00_scope.md section 5). -/
def Act.ofBit (b : Bool) : Act := if b then .on else .off

end Sys2Proof.Machine
end

