-- ==== Sys2Proof/Machine/Flags.lean ====
section
/-! DEFINITION. The flags and the status codes of a response word (spec/30_encoding.md R87, spec/60_exceptions.md R201).
HCE stores no flag (R31). -/

namespace Sys2Proof.Machine

/-- The bit of `flags` that a flag occupies (R87). -/
def Flag.bit : Flag → Nat
  | .lt => 0
  | .eq => 1
  | .gt => 2
  | .ovf => 3
  | .valid => 4
  | .init => 5

/-- The `flags` byte with this one flag set. -/
def Flag.mask (f : Flag) : Byte := 1#8 <<< f.bit

/-- The `flags` byte with this one flag set when `b` holds, and 0 otherwise. -/
def Flag.when (f : Flag) (b : Bool) : Byte := if b then f.mask else 0

/-- The flag that `FCMP` sets: exactly one of `LT`, `EQ`, `GT`, by the signed comparison of the integers (R112). -/
def compareFlag (a b : Int) : Flag := if a < b then .lt else if a = b then .eq else .gt

/-- The numeric value of a status code (R201). -/
def Status.code : Status → Byte
  | .ok => 0x00
  | .errNotInit => 0x01
  | .errOutOfRange => 0x02
  | .errIllegal => 0x03
  | .errBadChannel => 0x04

end Sys2Proof.Machine
end

