-- ==== Sys2Proof/Machine/Ops.lean ====
section
/-! DEFINITION. The named operations over memory, registers and the response port (spec/20_memory.md,
spec/30_encoding.md R85, R86, spec/41_store.md R130, R132, R135). HCE has no exception to take (R206, R207): what stands in
its place is the response with an error status, `State.reply`. -/

namespace Sys2Proof.Machine

/-! ## The NV memory -/

/-- What an address that no cell lists reads as: 0xFF, an erased byte. The spec leaves the content at the first
power-on unspecified (R51, U5); DESIGN CHOICE, unsafe (log entry 3). -/
def Mem.unlisted : Byte := 0xFF

/-- The canonical form: addresses strictly rising, no cell equal to what an unlisted address reads as. -/
abbrev Mem.Wf (m : Mem) : Prop :=
  m.Pairwise (fun c d => c.1 < d.1) ∧ ∀ c ∈ m, c.2 ≠ Mem.unlisted

/-- `MemRead(a, 1)` (R52). -/
def Mem.read : Mem → Nat → Byte
  | [], _ => Mem.unlisted
  | (b, v) :: rest, a => if b = a then v else Mem.read rest a

/-- `MemWrite(a, 1, v)` (R54), keeping the canonical form. -/
def Mem.write : Mem → Nat → Byte → Mem
  | [], a, v => if v = Mem.unlisted then [] else [(a, v)]
  | (b, u) :: rest, a, v =>
    if a < b then
      if v = Mem.unlisted then (b, u) :: rest else (a, v) :: (b, u) :: rest
    else if a = b then
      if v = Mem.unlisted then rest else (a, v) :: rest
    else (b, u) :: Mem.write rest a v

/-- `MemRead(a, 2) = nv[a] + 256 * nv[a+1]`: little-endian (R53). -/
def Mem.readField (m : Mem) (a : Nat) : Fx := m.read (a + 1) ++ m.read a

/-- `MemWrite(a, 2, v)` sets `nv[a] <- v mod 256` and `nv[a+1] <- v div 256` (R55). -/
def Mem.writeField (m : Mem) (a : Nat) (v : Fx) : Mem :=
  (m.write a (v.extractLsb' 0 8)).write (a + 1) (v.extractLsb' 8 8)

/-- One primitive write takes effect, whole (R54, R55; log entry 18). -/
def Mem.apply (m : Mem) : NvWrite → Mem
  | .byte a v => m.write a v
  | .field a v => m.writeField a v

/-- A sequence of primitive writes takes effect in the order issued (R62). -/
def Mem.applyAll (m : Mem) (ws : List NvWrite) : Mem := ws.foldl Mem.apply m

/-- Whether the byte at `a` is one that a primitive write sets (R54, R55: it "changes no other byte"). -/
def NvWrite.touches (a : Nat) : NvWrite → Bool
  | .byte b _ => decide (a = b)
  | .field b _ => decide (a = b) || decide (a = b + 1)

/-! ## The store layout and its internal sequences -/

/-- `blockAddr(i) = BLOCK_BASE + i * BLOCK_SIZE` (R57). -/
def blockAddr (c : Cfg) (i : Nat) : Nat := c.blockBase + i * c.blockSize

/-- `isInit()`: the marker byte equals `MARKER_VALUE` (R130). -/
def isInit (c : Cfg) (m : Mem) : Bool := m.read c.markerAddr == c.markerValue

/-- `readPair(i)`, its `coolOn` field (R57, R130). -/
def storedOn (c : Cfg) (m : Mem) (i : Nat) : Fx := m.readField (blockAddr c i)

/-- `readPair(i)`, its `coolOff` field (R57, R130). -/
def storedOff (c : Cfg) (m : Mem) (i : Nat) : Fx := m.readField (blockAddr c i + 2)

/-- `writePair(i, on, off)`: two writes, `coolOn` first (R130). -/
def pairWrites (c : Cfg) (i : Nat) (on off : Fx) : List NvWrite :=
  [.field (blockAddr c i) on, .field (blockAddr c i + 2) off]

/-- The `2N + 1` writes of `initializeDefaults`: the blocks in ascending order, the marker last (R133, R222). -/
def initWrites (c : Cfg) : List NvWrite :=
  (List.range c.nCh).flatMap (fun i => pairWrites c i (zext16 c.defaultOn) (zext16 c.defaultOff)) ++
    [.byte c.markerAddr c.markerValue]

/-- `validPair(on, off)`, on integers: both in `[T_MIN, T_MAX]`, and `on > off` (R135). -/
def validPair (c : Cfg) (on off : Int) : Bool :=
  decide (c.tMin ≤ on) && decide (on ≤ c.tMax) && decide (c.tMin ≤ off) && decide (off ≤ c.tMax) && decide (off < on)

/-! ## The channel registers -/

/-- What the read of a record beyond the register file gives. No event reaches it in a state of `N` records, since
every access is to a channel below `N` (R85; log entry 20). -/
def Channel.absent : Channel :=
  { reading := 0, rdValid := false, offset := 0, coolOn := 0, coolOff := 0, act := .off }

/-- The registers of channel `i` (R21). -/
def State.chan (s : State) (i : Nat) : Channel := s.channels.getD i Channel.absent

/-- The working copies of a channel take a pair. -/
def Channel.withPair (c : Channel) (on off : Fx) : Channel := { c with coolOn := on, coolOff := off }

/-- Actuator line `i`: its level is `act[i]` at all times (R33); without power HCE does not drive it (R212, U18). -/
def State.line (s : State) (i : Nat) : Option Act :=
  match s.power with
  | .powered => (s.channels[i]?).map (·.act)
  | .unpowered => none

/-! ## The response port -/

/-- The response word `{status, flags, 0x0000, V1, V0}` (R86). -/
def respond (status : Status) (flags : Byte) (v1 v0 : Fx) : Word64 :=
  status.code ++ flags ++ 0#16 ++ v1 ++ v0

/-- A command that answers and changes nothing: no register, no NV access. -/
def State.reply (s : State) (status : Status) (flags : Byte) (v1 v0 : Fx) : Transaction :=
  { writes := [], channels := s.channels, serial := s.serial, response := respond status flags v1 v0 }

/-- A command that commits a pair of thresholds of channel `i`: the pair write and the working copies together
(R136, R154), with `V1` and `V0` of its response. -/
def State.commitPair (s : State) (i : Nat) (on off v1 v0 : Fx) : Transaction :=
  { writes := pairWrites s.cfg i on off
    channels := s.channels.set i ((s.chan i).withPair on off)
    serial := s.serial
    response := respond .ok 0 v1 v0 }

/-- Step 2 of R85: a command of format `CH` or `CHAB` with `ch >= N` answers `ERR_BAD_CHANNEL`; otherwise its rule is
executed for the channel. -/
def State.onChannel (s : State) (ch : Byte) (rule : Nat → Transaction) : Transaction :=
  if channelIndex ch < s.cfg.nCh then rule (channelIndex ch) else s.reply .errBadChannel 0 0 0

/-- A command runs to completion: its NV writes take effect in order, its registers are written, and then its response
word is delivered (R7, R64). -/
def State.complete (s : State) (t : Transaction) : State :=
  { s with
    nv := s.nv.applyAll t.writes
    channels := t.channels
    serial := t.serial
    responses := s.responses ++ [t.response] }

end Sys2Proof.Machine
end

