-- ==== Sys2Proof/Machine/Store.lean ====
section
/-! DEFINITION. The calibration store operations (spec/41_store.md): `ST.ISINIT`, `ST.INITDEF`, `ST.RDTHR`, `ST.WRTHR`. -/

namespace Sys2Proof.Machine

/-- `ST.ISINIT` (R131). -/
def stIsinit (s : State) : Transaction := s.reply .ok (Flag.init.when (isInit s.cfg s.nv)) 0 0

/-- The meaning of `ST.ISINIT`. -/
def execStIsinit (s : State) : Host.Outcome State Fault Refusal := .next (s.complete (stIsinit s))

/-- Every working pair takes the default pair (R132, R133, R222). -/
def defaultPairs (c : Cfg) (chs : List Channel) : List Channel :=
  chs.map (·.withPair (zext16 c.defaultOn) (zext16 c.defaultOff))

/-- `ST.INITDEF` (R133). -/
def stInitdef (s : State) : Transaction :=
  { s.reply .ok 0 0 0 with writes := initWrites s.cfg, channels := defaultPairs s.cfg s.channels }

/-- The meaning of `ST.INITDEF`. -/
def execStInitdef (s : State) : Host.Outcome State Fault Refusal := .next (s.complete (stInitdef s))

/-- `ST.RDTHR ch` (R134): it reads the NV block, not the working copies. -/
def stRdthr (ch : Byte) (s : State) : Transaction :=
  s.onChannel ch fun i =>
    if isInit s.cfg s.nv then s.reply .ok 0 (storedOff s.cfg s.nv i) (storedOn s.cfg s.nv i)
    else s.reply .errNotInit 0 0 0

/-- The meaning of `ST.RDTHR`. -/
def execStRdthr (ch : Byte) (s : State) : Host.Outcome State Fault Refusal := .next (s.complete (stRdthr ch s))

/-- `ST.WRTHR ch, on, off` (R136). -/
def stWrthr (ch : Byte) (on off : Fx) (s : State) : Transaction :=
  s.onChannel ch fun i =>
    if validPair s.cfg (sext16 on) (sext16 off) then s.commitPair i on off off on
    else s.reply .errOutOfRange 0 0 0

/-- The meaning of `ST.WRTHR`. -/
def execStWrthr (ch : Byte) (on off : Fx) (s : State) : Host.Outcome State Fault Refusal :=
  .next (s.complete (stWrthr ch on off s))

end Sys2Proof.Machine
end

