-- ==== Sys2Proof/Machine/Boot.lean ====
section
/-! DEFINITION. Reset and boot (spec/70_reset_and_hazards.md R221, R222). -/

namespace Sys2Proof.Machine

/-- The registers of channel `i` after the first part of `RESET` (R221): `reading`, `coolOn` and `coolOff` are free
values (U4; log entry 14). -/
def resetChannel (c : Cfg) (serial i : Nat) : Channel :=
  { reading := Config.freeFx serial (3 * i)
    rdValid := false
    offset := zext16 (c.offsetInit.getD i 0)
    coolOn := Config.freeFx serial (3 * i + 1)
    coolOff := Config.freeFx serial (3 * i + 2)
    act := .off }

/-- The first part of `RESET` (R221): power is there, `phase` is `BOOT`, every channel register is set, the output trace
is empty; the NV memory is unchanged by reset itself (R38). -/
def resetRegisters (s : State) : State :=
  { s with
    power := .powered
    phase := .boot
    channels := (List.range s.cfg.nCh).map (resetChannel s.cfg s.serial)
    trace := []
    serial := s.serial + 1 }

/-- The NV writes of the boot sequence: none if the store is initialised, else those of `initializeDefaults` (R222). -/
def bootWrites (s : State) : List NvWrite := if isInit s.cfg s.nv then [] else initWrites s.cfg

/-- The working copies take the fields of the NV blocks, with no check (R222, R223). -/
def loadPairs (c : Cfg) (m : Mem) (chs : List Channel) : List Channel :=
  chs.mapIdx fun i ch => ch.withPair (storedOn c m i) (storedOff c m i)

/-- The boot sequence, the second part of `RESET` (R222). -/
def boot (s : State) : State :=
  { s with
    nv := s.nv.applyAll (bootWrites s)
    channels := if isInit s.cfg s.nv then loadPairs s.cfg s.nv s.channels else defaultPairs s.cfg s.channels
    phase := .run }

end Sys2Proof.Machine
end

