-- ==== Sys2Proof/Machine/Controller.lean ====
section
/-! DEFINITION. The channel controller (spec/42_controller.md): the hysteresis transition function, the six adjust
commands, the four read accessors. -/

namespace Sys2Proof.Machine

/-- `next(st, s, on, off)` (R150): only the condition of the present state is tested. -/
def nextAct (st : Act) (s on off : Int) : Act :=
  match st with
  | .off => if on ≤ s then .on else .off
  | .on => if s ≤ off then .off else .on

/-! ## Adjust operations -/

/-- Which threshold an adjust moves (R153). -/
inductive Side where
  | on
  | off
deriving DecidableEq, Repr

/-- The candidate `coolOn` of R153, an exact integer. -/
def candOn (side : Side) (delta : Int) (c : Channel) : Int :=
  match side with
  | .on => sext16 c.coolOn + delta
  | .off => sext16 c.coolOn

/-- The candidate `coolOff` of R153, an exact integer. -/
def candOff (side : Side) (delta : Int) (c : Channel) : Int :=
  match side with
  | .on => sext16 c.coolOff
  | .off => sext16 c.coolOff + delta

/-- The one of two values that an adjust moves. -/
def Side.pick {α : Type} (side : Side) (on off : α) : α :=
  match side with
  | .on => on
  | .off => off

/-- `adjustThr(ch, side, delta)` (R153, R154): validate the whole candidate pair on the exact integers, then commit and
persist both fields, or reject with the retained value in `V0`. -/
def adjustThr (ch : Byte) (side : Side) (delta : Int) (s : State) : Transaction :=
  s.onChannel ch fun i =>
    let c := s.chan i
    let on := candOn side delta c
    let off := candOff side delta c
    if validPair s.cfg on off then s.commitPair i (zext16 on) (zext16 off) 0 (zext16 (side.pick on off))
    else s.reply .errOutOfRange 0 0 (side.pick c.coolOn c.coolOff)

/-- `adjustOfs(ch, delta)` (R159): no NV write, committed or not. -/
def adjustOfs (ch : Byte) (delta : Int) (s : State) : Transaction :=
  s.onChannel ch fun i =>
    let c := s.chan i
    let cand := sext16 c.offset + delta
    if cand < s.cfg.ofsMin ∨ s.cfg.ofsMax < cand then s.reply .errOutOfRange 0 0 c.offset
    else { s.reply .ok 0 0 (zext16 cand) with channels := s.channels.set i { c with offset := zext16 cand } }

/-- `ADJ.ON.INC ch` (R155). -/
def adjOnInc (ch : Byte) (s : State) : Transaction := adjustThr ch .on s.cfg.tStep s

/-- The meaning of `ADJ.ON.INC`. -/
def execAdjOnInc (ch : Byte) (s : State) : Host.Outcome State Fault Refusal := .next (s.complete (adjOnInc ch s))

/-- `ADJ.ON.DEC ch` (R156): the addition of the negative step. -/
def adjOnDec (ch : Byte) (s : State) : Transaction := adjustThr ch .on (-s.cfg.tStep) s

/-- The meaning of `ADJ.ON.DEC`. -/
def execAdjOnDec (ch : Byte) (s : State) : Host.Outcome State Fault Refusal := .next (s.complete (adjOnDec ch s))

/-- `ADJ.OFF.INC ch` (R157). -/
def adjOffInc (ch : Byte) (s : State) : Transaction := adjustThr ch .off s.cfg.tStep s

/-- The meaning of `ADJ.OFF.INC`. -/
def execAdjOffInc (ch : Byte) (s : State) : Host.Outcome State Fault Refusal := .next (s.complete (adjOffInc ch s))

/-- `ADJ.OFF.DEC ch` (R158). -/
def adjOffDec (ch : Byte) (s : State) : Transaction := adjustThr ch .off (-s.cfg.tStep) s

/-- The meaning of `ADJ.OFF.DEC`. -/
def execAdjOffDec (ch : Byte) (s : State) : Host.Outcome State Fault Refusal := .next (s.complete (adjOffDec ch s))

/-- `ADJ.OFS.INC ch` (R159). -/
def adjOfsInc (ch : Byte) (s : State) : Transaction := adjustOfs ch s.cfg.ofsStep s

/-- The meaning of `ADJ.OFS.INC`. -/
def execAdjOfsInc (ch : Byte) (s : State) : Host.Outcome State Fault Refusal := .next (s.complete (adjOfsInc ch s))

/-- `ADJ.OFS.DEC ch` (R160). -/
def adjOfsDec (ch : Byte) (s : State) : Transaction := adjustOfs ch (-s.cfg.ofsStep) s

/-- The meaning of `ADJ.OFS.DEC`. -/
def execAdjOfsDec (ch : Byte) (s : State) : Host.Outcome State Fault Refusal := .next (s.complete (adjOfsDec ch s))

/-! ## Read accessors -/

/-- `GET.READING ch` (R161): the last acquired reading, not the corrected one. -/
def getReading (ch : Byte) (s : State) : Transaction :=
  s.onChannel ch fun i => s.reply .ok (Flag.valid.when (s.chan i).rdValid) 0 (s.chan i).reading

/-- The meaning of `GET.READING`. -/
def execGetReading (ch : Byte) (s : State) : Host.Outcome State Fault Refusal := .next (s.complete (getReading ch s))

/-- `GET.COOLON ch` (R162). -/
def getCoolon (ch : Byte) (s : State) : Transaction := s.onChannel ch fun i => s.reply .ok 0 0 (s.chan i).coolOn

/-- The meaning of `GET.COOLON`. -/
def execGetCoolon (ch : Byte) (s : State) : Host.Outcome State Fault Refusal := .next (s.complete (getCoolon ch s))

/-- `GET.COOLOFF ch` (R163). -/
def getCooloff (ch : Byte) (s : State) : Transaction := s.onChannel ch fun i => s.reply .ok 0 0 (s.chan i).coolOff

/-- The meaning of `GET.COOLOFF`. -/
def execGetCooloff (ch : Byte) (s : State) : Host.Outcome State Fault Refusal := .next (s.complete (getCooloff ch s))

/-- `GET.OFFSET ch` (R164). -/
def getOffset (ch : Byte) (s : State) : Transaction := s.onChannel ch fun i => s.reply .ok 0 0 (s.chan i).offset

/-- The meaning of `GET.OFFSET`. -/
def execGetOffset (ch : Byte) (s : State) : Host.Outcome State Fault Refusal := .next (s.complete (getOffset ch s))

end Sys2Proof.Machine
end

