-- ==== Sys2Proof/Machine/Cycle.lean ====
section
/-! DEFINITION. The control cycle (spec/43_cycle.md): the `TICK` event. -/

namespace Sys2Proof.Machine

/-- The corrected reading of R182, an exact integer: `reading[i] + offset[i]`. -/
def corrected (r : Fx) (c : Channel) : Int := sext16 r + sext16 c.offset

/-- `stepValid(i, r)` (R182). Where the corrected reading is out of range the new `act` is a free value (U2; log entry
13), the draw `serial` at slot `i`. -/
def stepValid (serial i : Nat) (r : Fx) (c : Channel) : Channel :=
  { c with
    reading := r
    rdValid := true
    act :=
      if inrange (corrected r c) then nextAct c.act (corrected r c) (sext16 c.coolOn) (sext16 c.coolOff)
      else Act.ofBit (Config.freeBit serial i) }

/-- `stepFault(i)` (R183): `reading` and `act` keep their values. -/
def stepFault (c : Channel) : Channel := { c with rdValid := false }

/-- The step of channel `i` in one `TICK` (R180). -/
def stepChannel (serial i : Nat) (lane : Lane) (c : Channel) : Channel :=
  match lane with
  | .valid r => stepValid serial i r c
  | .fault => stepFault c

/-- Lane `i` of the sample vector. `step` takes a `TICK` of exactly `N` lanes only (R34). -/
def laneAt (sample : List Lane) (i : Nat) : Lane := sample.getD i .fault

/-- The channel registers after a `TICK`, all channels (R180, R181: in any order, or all at once). -/
def tickChannels (serial : Nat) (sample : List Lane) (chs : List Channel) : List Channel :=
  chs.mapIdx fun i c => stepChannel serial i (laneAt sample i) c

/-- The `ACT` events of a `TICK`: one per channel in index order, after that channel's step (R184). -/
def actEvents (chs : List Channel) : List ActEvent := chs.mapIdx fun i c => ⟨i, c.act⟩

/-- `TICK(sample)` (R180): no NV access (R186), no response word. Each `TICK` has a draw of its own. -/
def tick (sample : List Lane) (s : State) : State :=
  { s with
    channels := tickChannels s.serial sample s.channels
    trace := s.trace ++ actEvents (tickChannels s.serial sample s.channels)
    serial := s.serial + 1 }

end Sys2Proof.Machine
end

