-- ==== Sys2Proof/Machine/FixedPoint.lean ====
section
/-! DEFINITION. The fixed-point unit (spec/40_fixedpoint.md): `FADD`, `FCMP`, `FCLAMP`, and the reference functions
`toFixed` and `toDisplay`. -/

namespace Sys2Proof.Machine

/-- `exactAdd(a, b)`: the sum as an unbounded integer (R114). -/
def exactAdd (a b : Fx) : Int := sext16 a + sext16 b

/-- `FADD a, b` (R111). Outside the 16-bit range `OVF` is set, the status is `OK` and `V0` is a free value (U1; log entry
12), for which the draw counter advances. -/
def fadd (a b : Fx) (s : State) : Transaction :=
  if inrange (exactAdd a b) then s.reply .ok 0 0 (zext16 (exactAdd a b))
  else { s.reply .ok Flag.ovf.mask 0 (Config.freeFx s.serial 0) with serial := s.serial + 1 }

/-- The meaning of `FADD`. -/
def execFadd (a b : Fx) (s : State) : Host.Outcome State Fault Refusal := .next (s.complete (fadd a b s))

/-- `FCMP a, b` (R112). -/
def fcmp (a b : Fx) (s : State) : Transaction := s.reply .ok (compareFlag (sext16 a) (sext16 b)).mask 0 0

/-- The meaning of `FCMP`. -/
def execFcmp (a b : Fx) (s : State) : Host.Outcome State Fault Refusal := .next (s.complete (fcmp a b s))

/-- The clamp of R113, as its pseudocode is written: the test against `lo` is made first. -/
def clamp (v lo hi : Fx) : Fx :=
  if sext16 v < sext16 lo then lo else if sext16 hi < sext16 v then hi else v

/-- `FCLAMP v, lo, hi` (R113). -/
def fclamp (v lo hi : Fx) (s : State) : Transaction := s.reply .ok 0 0 (clamp v lo hi)

/-- The meaning of `FCLAMP`. -/
def execFclamp (v lo hi : Fx) (s : State) : Host.Outcome State Fault Refusal := .next (s.complete (fclamp v lo hi s))

/-! ## The conversion functions: reference functions, not commands (R116, R117) -/

/-- `round(d * 2^F)`, half away from zero, exact over the rationals, before the range check (R116). -/
def roundFixed (d : Rat) (fracBits : Nat) : Int :=
  let x := d * 2 ^ fracBits
  if 0 ≤ x then ⌊x + 1 / 2⌋ else -⌊-x + 1 / 2⌋

/-- `toFixed(d, F)` where it is in range, and `none` where R116 leaves it unspecified. -/
def toFixed? (d : Rat) (fracBits : Nat) : Option Fx :=
  if inrange (roundFixed d fracBits) then some (zext16 (roundFixed d fracBits)) else none

/-- `toFixed(d, F)` (R116); out of range a free value (U3; log entry 15). -/
def toFixed (d : Rat) (fracBits : Nat) : Fx := (toFixed? d fracBits).getD (Config.freeToFixed d fracBits)

/-- `toDisplay(r, F) = r / 2^F`, exact (R117). -/
def toDisplay (r : Fx) (fracBits : Nat) : Rat := (sext16 r : Rat) / 2 ^ fracBits

end Sys2Proof.Machine
end

