-- ==== Sys2Proof/Machine/Dispatch.lean ====
section
/-! DEFINITION. Steps 2 and 3 of spec/30_encoding.md R85: each command's meaning, one arm per row of the opcode table. -/

namespace Sys2Proof.Machine

def exec (i : Instr) (s : State) : Host.Outcome State Fault Refusal :=
  match i with
  | .fadd a b => Sys2Proof.Machine.execFadd a b s
  | .fcmp a b => Sys2Proof.Machine.execFcmp a b s
  | .fclamp v lo hi => Sys2Proof.Machine.execFclamp v lo hi s
  | .stIsinit => Sys2Proof.Machine.execStIsinit s
  | .stInitdef => Sys2Proof.Machine.execStInitdef s
  | .stRdthr ch => Sys2Proof.Machine.execStRdthr ch s
  | .stWrthr ch on off => Sys2Proof.Machine.execStWrthr ch on off s
  | .adjOnInc ch => Sys2Proof.Machine.execAdjOnInc ch s
  | .adjOnDec ch => Sys2Proof.Machine.execAdjOnDec ch s
  | .adjOffInc ch => Sys2Proof.Machine.execAdjOffInc ch s
  | .adjOffDec ch => Sys2Proof.Machine.execAdjOffDec ch s
  | .adjOfsInc ch => Sys2Proof.Machine.execAdjOfsInc ch s
  | .adjOfsDec ch => Sys2Proof.Machine.execAdjOfsDec ch s
  | .getReading ch => Sys2Proof.Machine.execGetReading ch s
  | .getCoolon ch => Sys2Proof.Machine.execGetCoolon ch s
  | .getCooloff ch => Sys2Proof.Machine.execGetCooloff ch s
  | .getOffset ch => Sys2Proof.Machine.execGetOffset ch s

end Sys2Proof.Machine
end

