-- ==== Sys2Proof/Machine/Events.lean ====
section
/-! DEFINITION. The events (spec/00_scope.md R7): a command word delivered whole (spec/30_encoding.md R85), a power loss
(spec/20_memory.md R61), and the taking of the next event. -/

namespace Sys2Proof.Machine

/-! ## Commands -/

/-- What a decoded command does (its rule), as one transaction: the same one that its meaning completes, kept apart so
that a power loss can cut it. -/
def transaction (i : Instr) (s : State) : Transaction :=
  match i with
  | .fadd a b => fadd a b s
  | .fcmp a b => fcmp a b s
  | .fclamp v lo hi => fclamp v lo hi s
  | .stIsinit => stIsinit s
  | .stInitdef => stInitdef s
  | .stRdthr ch => stRdthr ch s
  | .stWrthr ch on off => stWrthr ch on off s
  | .adjOnInc ch => adjOnInc ch s
  | .adjOnDec ch => adjOnDec ch s
  | .adjOffInc ch => adjOffInc ch s
  | .adjOffDec ch => adjOffDec ch s
  | .adjOfsInc ch => adjOfsInc ch s
  | .adjOfsDec ch => adjOfsDec ch s
  | .getReading ch => getReading ch s
  | .getCoolon ch => getCoolon ch s
  | .getCooloff ch => getCooloff ch s
  | .getOffset ch => getOffset ch s

/-- Step 1 of R85 for a word that selects no row: `ERR_ILLEGAL`, and nothing else. -/
def illegal (s : State) : Transaction := s.reply .errIllegal 0 0 0

/-- `CMD(w)` (R35, R85): one command word, answered by one response word. -/
def command (w : Word64) (s : State) : Host.Outcome State Fault Refusal :=
  match decode w with
  | none => .next (s.complete (illegal s))
  | some i => exec i s

/-- The NV writes `w_1 .. w_W` of a command word in a state (R61); none for an illegal or a rejected command. -/
def commandWrites (w : Word64) (s : State) : List NvWrite :=
  match decode w with
  | none => []
  | some i => (transaction i s).writes

/-! ## Power loss -/

/-- The NV writes of the operation in progress (R61). -/
def operationWrites (op : Operation) (s : State) : List NvWrite :=
  match op with
  | .idle => []
  | .boot => bootWrites s
  | .tick _ _ => []
  | .cmd w => commandWrites w s

/-- The `ACT` events that the operation in progress has emitted before the loss: the first `acts` of a tick (R186). -/
def operationActs (op : Operation) (s : State) : List ActEvent :=
  match op with
  | .tick sample acts => (actEvents (tickChannels s.serial sample s.channels)).take acts
  | .idle => []
  | .boot => []
  | .cmd _ => []

/-- A register file whose content a power loss has lost: a free value in every register, of the draw `serial` (R61; log entry
10). -/
def lostChannel (serial i : Nat) : Channel :=
  { reading := Config.freeFx serial (4 * i)
    rdValid := Config.freeBit serial (2 * i)
    offset := Config.freeFx serial (4 * i + 1)
    coolOn := Config.freeFx serial (4 * i + 2)
    coolOff := Config.freeFx serial (4 * i + 3)
    act := Act.ofBit (Config.freeBit serial (2 * i + 1)) }

/-- Supply lost after the first `k` NV writes of the operation in progress: those have taken effect and the others have
not, every register is lost, no response word is delivered, no later `ACT` event is emitted (R61). `phase` is lost too; no
rule reads it before `RESET` writes it, and the model holds `BOOT` there (log entry 10). The event has two draws: `s.serial` for
the `ACT` events of an interrupted `TICK` (R182), the next for the lost registers, so that no two of its unspecified values are
made equal (log entry 11). -/
def losePower (op : Operation) (k : Nat) (s : State) : State :=
  { s with
    nv := s.nv.applyAll ((operationWrites op s).take k)
    trace := s.trace ++ operationActs op s
    channels := (List.range s.cfg.nCh).map (lostChannel (s.serial + 1))
    phase := .boot
    power := .unpowered
    serial := s.serial + 2 }

/-- Whether an interrupted `TICK` is one of `N` lanes, and whether its count of `ACT` events is at most `N`. -/
def tickCutOk (op : Operation) (s : State) : Option Refusal :=
  match op with
  | .tick sample acts =>
    if sample.length ≠ s.cfg.nCh then some .sampleLength else if s.cfg.nCh < acts then some .powerLossCount else none
  | .idle => none
  | .boot => none
  | .cmd _ => none

/-- `POWERLOSS(k)` with `0 <= k <= W` (R61); a larger `k` is no event of HCE (log entry 9). -/
def powerLoss (op : Operation) (k : Nat) (s : State) : Host.Outcome State Fault Refusal :=
  match tickCutOk op s with
  | some r => .refused r
  | none => if k ≤ (operationWrites op s).length then .next (losePower op k s) else .refused .powerLossCount

/-! ## The next event -/

/-- The events that wait, without the one taken. -/
def State.withInbox (s : State) (es : List Event) : State := { s with inbox := es }

/-- The next event in `phase == RUN` (R7): it runs to completion. With no event offered HCE is idle, "with all state
held" (R212). A `RESET` with no operation in progress loses nothing but the registers (R220). -/
def takeRunning (s : State) : Host.Outcome State Fault Refusal :=
  match s.inbox with
  | [] => .next s
  | .reset :: es => .next (resetRegisters (s.withInbox es))
  | .tick sample :: es =>
    if sample.length = s.cfg.nCh then .next (tick sample (s.withInbox es)) else .refused .sampleLength
  | .cmd w :: es => command w (s.withInbox es)
  | .powerLoss .boot _ :: _ => .refused .operationNotInProgress
  | .powerLoss .idle k :: es => powerLoss .idle k (s.withInbox es)
  | .powerLoss (.tick sample acts) k :: es => powerLoss (.tick sample acts) k (s.withInbox es)
  | .powerLoss (.cmd w) k :: es => powerLoss (.cmd w) k (s.withInbox es)

/-- The step in `phase == BOOT` (R28): the boot sequence, unless a power loss cuts it; every other event waits. -/
def takeBooting (s : State) : Host.Outcome State Fault Refusal :=
  match s.inbox with
  | .powerLoss .boot k :: es => powerLoss .boot k (s.withInbox es)
  | _ => .next (boot s)

/-- The step without power: "The next event after any `POWERLOSS` is `RESET`; nothing else can happen while there is no
power" (R61). -/
def takeUnpowered (s : State) : Host.Outcome State Fault Refusal :=
  match s.inbox with
  | [] => .next s
  | .reset :: es => .next (resetRegisters (s.withInbox es))
  | _ :: _ => .refused .eventWithoutPower

/-- One step of a machine whose constants satisfy R8 and R9. -/
def takeEvent (s : State) : Host.Outcome State Fault Refusal :=
  match s.power, s.phase with
  | .unpowered, _ => takeUnpowered s
  | .powered, .boot => takeBooting s
  | .powered, .run => takeRunning s

/-- The machine brought to `phase == RUN`, where it takes commands: powered by a `RESET` if it has no power, and booted
(R222) if it is in `BOOT`. -/
def State.ready (s : State) : State :=
  match s.power, s.phase with
  | .unpowered, _ => boot (resetRegisters s)
  | .powered, .boot => boot s
  | .powered, .run => s

end Sys2Proof.Machine
end

