-- ==== Sys2Proof/Machine/Step.lean ====
section
/-! DEFINITION. One step of HCE: the next event of its environment (spec/00_scope.md R7), or the boot sequence
(spec/10_state.md R28). -/

namespace Sys2Proof.Machine

/-- One step. A record of constants that breaks R8 or R9 is no configuration of HCE (R9, U12; log entry 2). -/
def step (s : State) : Host.Outcome State Fault Refusal :=
  if s.cfg.Wf then takeEvent s else .refused .notAConfiguration

/-- `s` with the command word of the table's numbering offered as the next event. HCE fetches nothing (R30): a command
comes from its port, and it is taken in `phase == RUN` only (R28), so a machine that is not there yet is brought there
(log entry 7). Bits at or above `nbits` are 0. -/
def State.withFetchWord (s : State) (nbits w : Nat) : State :=
  s.ready.withInbox (.cmd (BitVec.ofNat 64 (w % 2 ^ nbits)) :: s.ready.inbox)

end Sys2Proof.Machine
end

