-- ==== Sys2Proof/Machine/Script.lean ====
section
/-! DEFINITION. The assembler and event-script syntax (spec/30_encoding.md R90 to R93): from the characters of a line to a
command or an event, and from a script to a machine that is about to run it. Points of the text that R90 to R92 leave open
are in log entry 23. -/

namespace Sys2Proof.Machine

/-! ## Characters and numbers -/

/-- A decimal digit's value. -/
def digit? (c : Char) : Option Nat :=
  if 48 ≤ c.toNat ∧ c.toNat ≤ 57 then some (c.toNat - 48) else none

/-- A hexadecimal digit's value, either case. -/
def hexDigit? (c : Char) : Option Nat :=
  if 65 ≤ c.toNat ∧ c.toNat ≤ 70 then some (c.toNat - 55)
  else if 97 ≤ c.toNat ∧ c.toNat ≤ 102 then some (c.toNat - 87)
  else digit? c

/-- A number in base `base`, at least one digit, most significant first. -/
def number? (base : Nat) (digitOf : Char → Option Nat) (cs : List Char) : Option Nat :=
  if cs = [] then none
  else cs.foldl (fun acc c => acc.bind fun n => (digitOf c).map fun d => n * base + d) (some 0)

/-- A decimal number without sign. -/
def decimal? (cs : List Char) : Option Nat := number? 10 digit? cs

/-- An optional sign, and what follows it: `-1` or `1`. -/
def signed (cs : List Char) : Int × List Char :=
  match cs with
  | '-' :: rest => (-1, rest)
  | '+' :: rest => (1, rest)
  | _ => (1, cs)

/-- "A decimal integer, optionally signed" (R92 (a)). -/
def integer? (cs : List Char) : Option Int := (decimal? (signed cs).2).map fun n => (signed cs).1 * n

/-- The pieces of `cs` between the characters `c`: one more than there are such characters. -/
def pieces (c : Char) : List Char → List (List Char)
  | [] => [[]]
  | d :: rest =>
    if d = c then [] :: pieces c rest
    else match pieces c rest with
      | [] => [[d]]
      | p :: ps => (d :: p) :: ps

/-- Without the blanks at both ends. -/
def trimmed (cs : List Char) : List Char :=
  ((cs.dropWhile Char.isWhitespace).reverse.dropWhile Char.isWhitespace).reverse

/-- The words of `cs` between blanks. -/
def blankWords (cs : List Char) : List (List Char) :=
  (pieces ' ' (cs.map fun c => if c.isWhitespace then ' ' else c)).filter (· ≠ [])

/-- The text before the first `->` and, if there is one, the text after it (R90). -/
def splitArrow : List Char → List Char × Option (List Char)
  | [] => ([], none)
  | '-' :: '>' :: rest => ([], some rest)
  | c :: rest => (c :: (splitArrow rest).1, (splitArrow rest).2)

/-! ## Operands -/

/-- "a signed decimal number with an optional fraction" (R92 (c)), exact. -/
def decimalFraction? (cs : List Char) : Option Rat :=
  match pieces '.' (signed cs).2 with
  | [whole] => (decimal? whole).map fun n => (((signed cs).1 * n : Int) : Rat)
  | [whole, frac] =>
    (decimal? whole).bind fun n => (decimal? frac).map fun f =>
      (((signed cs).1 * (n * 10 ^ frac.length + f : Nat) : Int) : Rat) / 10 ^ frac.length
  | _ => none

/-- The three forms of a temperature operand (R92). -/
inductive Temperature where
  /-- A decimal integer: a raw value. -/
  | raw (v : Int)
  /-- `0x` and four hexadecimal digits: the 16-bit field itself. -/
  | field (u : Fx)
  /-- `#` and a decimal number: a display value. -/
  | display (d : Rat)
deriving DecidableEq, Repr

/-- The form of a temperature operand's text (R92). -/
def temperature? (cs : List Char) : Option Temperature :=
  match cs with
  | '#' :: rest => (decimalFraction? rest).map .display
  | '0' :: 'x' :: rest =>
    if rest.length = 4 then (number? 16 hexDigit? rest).map fun n => .field (BitVec.ofNat 16 n) else none
  | _ => (integer? cs).map .raw

/-- The raw value of a temperature operand; `none` where the assembler rejects the line (R92). -/
def Temperature.value? (fracBits : Nat) : Temperature → Option Fx
  | .raw v => if inrange v then some (zext16 v) else none
  | .field u => some u
  | .display d => toFixed? d fracBits

/-- A temperature operand's text, read whole. -/
def readTemperature (c : Cfg) (cs : List Char) : Option Fx :=
  (temperature? (trimmed cs)).bind fun t => t.value? c.fracBits

/-- "`ch` is a decimal integer `0..255`" (R90). -/
def readChannel (cs : List Char) : Option Byte :=
  (decimal? (trimmed cs)).bind fun n => if n ≤ 255 then some (BitVec.ofNat 8 n) else none

/-- A lane of a `TICK` line: a temperature operand or `-`, a fault (R91). -/
def readLane (c : Cfg) (cs : List Char) : Option Lane :=
  if trimmed cs = ['-'] then some .fault else (readTemperature c cs).map .valid

/-! ## Lines -/

/-- A line of a script: one event, or the initial content of NV bytes (R91). -/
inductive ScriptLine where
  | nv (a : Nat) (bytes : List Byte)
  | reset
  | tick (sample : List Lane)
  | powerLoss (k : Nat)
  | command (i : Instr)
deriving DecidableEq, Repr

/-- `TICKALL s` is `TICK s, s, ..., s` with `N` copies of `s` (R93). -/
def tickAll (c : Cfg) (lane : Lane) : ScriptLine := .tick (List.replicate c.nCh lane)

/-- `TICK1 i, s` is the `TICK` whose lane `i` is `s` and whose other lanes are all faults (R93). With `i >= N` there is no such
lane, and R93 is silent; DESIGN CHOICE: the assembler rejects the line (log entry 23). -/
def tick1 (c : Cfg) (i : Nat) (lane : Lane) : Option ScriptLine :=
  if i < c.nCh then some (.tick ((List.replicate c.nCh .fault).set i lane)) else none

/-- `TICK s0, ..., s(N-1)`: exactly `N` lanes (R91). -/
def tickLine (c : Cfg) (operands : List (List Char)) : Option ScriptLine :=
  if operands.length = c.nCh then (operands.mapM (readLane c)).map .tick else none

/-- `ST.SET ch, on, off` is `ST.WRTHR ch, on, off` (R93). -/
def stSet (ch : Byte) (on off : Fx) : ScriptLine := .command (.stWrthr ch on off)

/-- The commands with one operand `ch` (R90). -/
def channelCommands : List (String × (Byte → Instr)) := [
  ("ST.RDTHR", .stRdthr),
  ("ADJ.ON.INC", .adjOnInc), ("ADJ.ON.DEC", .adjOnDec),
  ("ADJ.OFF.INC", .adjOffInc), ("ADJ.OFF.DEC", .adjOffDec),
  ("ADJ.OFS.INC", .adjOfsInc), ("ADJ.OFS.DEC", .adjOfsDec),
  ("GET.READING", .getReading), ("GET.COOLON", .getCoolon),
  ("GET.COOLOFF", .getCooloff), ("GET.OFFSET", .getOffset)]

/-- A command or event line with two operands, of which the first is a temperature. -/
def binaryCommand (c : Cfg) (build : Fx → Fx → Instr) (x y : List Char) : Option ScriptLine :=
  (readTemperature c x).bind fun a => (readTemperature c y).map fun b => .command (build a b)

/-- A threshold write, in either spelling (R90, R93). -/
def thresholdWrite (c : Cfg) (ch on off : List Char) : Option ScriptLine :=
  (readChannel ch).bind fun i => (readTemperature c on).bind fun a => (readTemperature c off).map fun b => stSet i a b

/-- The line that a mnemonic and its operands spell, operands in R84's order (R90, R91, R93). -/
def lineOf (c : Cfg) (mnemonic : List Char) (operands : List (List Char)) : Option ScriptLine :=
  if mnemonic = "TICK".toList then tickLine c operands
  else match operands with
    | [] =>
      if mnemonic = "RESET".toList then some .reset
      else if mnemonic = "ST.ISINIT".toList then some (.command .stIsinit)
      else if mnemonic = "ST.INITDEF".toList then some (.command .stInitdef)
      else none
    | [x] =>
      if mnemonic = "POWERLOSS".toList then (decimal? (trimmed x)).map .powerLoss
      else if mnemonic = "TICKALL".toList then (readLane c x).map (tickAll c)
      else (channelCommands.find? fun p => p.1.toList = mnemonic).bind fun p =>
        (readChannel x).map fun ch => .command (p.2 ch)
    | [x, y] =>
      if mnemonic = "FADD".toList then binaryCommand c .fadd x y
      else if mnemonic = "FCMP".toList then binaryCommand c .fcmp x y
      else if mnemonic = "TICK1".toList then
        (decimal? (trimmed x)).bind fun i => (readLane c y).bind fun lane => tick1 c i lane
      else none
    | [x, y, z] =>
      if mnemonic = "FCLAMP".toList then
        (readTemperature c x).bind fun v => (readTemperature c y).bind fun lo => (readTemperature c z).map fun hi =>
          .command (.fclamp v lo hi)
      else if mnemonic = "ST.WRTHR".toList then thresholdWrite c x y z
      else if mnemonic = "ST.SET".toList then thresholdWrite c x y z
      else none
    | _ => none

/-- `NV a: b0 b1 ...`: an address, decimal or `0x` and hexadecimal digits, and bytes of two hexadecimal digits (R91). -/
def nvLine (cs : List Char) : Option ScriptLine :=
  match pieces ':' cs with
  | [a, bytes] =>
    let address := match trimmed a with
      | '0' :: 'x' :: hex => number? 16 hexDigit? hex
      | dec => decimal? dec
    address.bind fun n =>
      ((blankWords bytes).mapM fun (b : List Char) =>
        if b.length = 2 then (number? 16 hexDigit? b).map (BitVec.ofNat 8) else none).map fun bs => .nv n bs
  | _ => none

/-! ## Expectations -/

/-- What a line may say of its result after `->` (R90, R91). A value written `?` is unspecified (`none`). -/
inductive Expectation where
  | response (status : Status) (v0 v1 : Option Fx) (flags : Byte)
  | acts (expected : List ActEvent)
deriving DecidableEq, Repr

/-- The name of a status code (R201). -/
def status? (cs : List Char) : Option Status :=
  if cs = "OK".toList then some .ok
  else if cs = "ERR_NOT_INIT".toList then some .errNotInit
  else if cs = "ERR_OUT_OF_RANGE".toList then some .errOutOfRange
  else if cs = "ERR_ILLEGAL".toList then some .errIllegal
  else if cs = "ERR_BAD_CHANNEL".toList then some .errBadChannel
  else none

/-- The `flags` byte that a flag's name stands for, or 0 (R87, R90). -/
def flag? (cs : List Char) : Option Byte :=
  if cs = "LT".toList then some Flag.lt.mask
  else if cs = "EQ".toList then some Flag.eq.mask
  else if cs = "GT".toList then some Flag.gt.mask
  else if cs = "OVF".toList then some Flag.ovf.mask
  else if cs = "VALID".toList then some Flag.valid.mask
  else if cs = "INIT".toList then some Flag.init.mask
  else if cs = "0".toList then some 0
  else none

/-- A result value: a temperature operand or `?`. -/
def expectedValue? (c : Cfg) (cs : List Char) : Option (Option Fx) :=
  if cs = ['?'] then some none else (readTemperature c cs).map some

/-- One part `v0=`, `v1=` or `flags=` of an expected response (R90). -/
def expectPart (c : Cfg) (e : Option Fx × Option Fx × Byte) (part : List Char) : Option (Option Fx × Option Fx × Byte) :=
  match pieces '=' part with
  | [name, value] =>
    if name = "v0".toList then (expectedValue? c value).map fun v => (v, e.2.1, e.2.2)
    else if name = "v1".toList then (expectedValue? c value).map fun v => (e.1, v, e.2.2)
    else if name = "flags".toList then (flag? value).map fun f => (e.1, e.2.1, f)
    else none
  | _ => none

/-- One expected actuator command, `i:ON` or `i:OFF` (R91). -/
def expectAct (cs : List Char) : Option ActEvent :=
  match pieces ':' cs with
  | [i, b] =>
    (decimal? i).bind fun n =>
      if b = "ON".toList then some ⟨n, .on⟩ else if b = "OFF".toList then some ⟨n, .off⟩ else none
  | _ => none

/-- The text after `->`: `ACT` and actuator commands, or a status name and the parts of a response, "with omitted parts
equal to 0" (R90, R91). Whether the status name may be omitted too is open; DESIGN CHOICE: it may not (log entry 23). -/
def expectation? (c : Cfg) (cs : List Char) : Option Expectation :=
  match blankWords cs with
  | [] => none
  | w :: ws =>
    if w = "ACT".toList then (ws.mapM expectAct).map .acts
    else (status? w).bind fun st =>
      (ws.foldlM (expectPart c) (some 0, some 0, 0)).map fun e => .response st e.1 e.2.1 e.2.2

/-- Whether a response word is the expected one. -/
def Expectation.metByResponse (w : Word64) : Expectation → Bool
  | .response st v0 v1 flags =>
    w.extractLsb' 56 8 == st.code && w.extractLsb' 48 8 == flags &&
      (v1.getD (w.extractLsb' 16 16) == w.extractLsb' 16 16) && (v0.getD (w.extractLsb' 0 16) == w.extractLsb' 0 16)
  | .acts _ => false

/-- Whether the `ACT` events of a tick are the expected ones. -/
def Expectation.metByActs (es : List ActEvent) : Expectation → Bool
  | .acts expected => es == expected
  | .response _ _ _ _ => false

/-! ## Scripts -/

/-- A line read whole: the event and what is expected of it. -/
structure ScriptEntry where
  line : ScriptLine
  expected : Option Expectation
deriving DecidableEq, Repr

/-- One line of text: a comment "runs from `;` to the end of the line" (R90). `none` is a line the assembler rejects. A blank
line, or one with a comment only, is rejected: R91 makes each line one event, and whether a script may hold such a line beside
them is open; DESIGN CHOICE (log entry 23). -/
def parseLine (c : Cfg) (cs : List Char) : Option ScriptEntry :=
  let (body, after) := splitArrow (cs.takeWhile (· ≠ ';'))
  let (mnemonic, rest) := (trimmed body).span (fun ch => !ch.isWhitespace)
  let line :=
    if mnemonic = "NV".toList then nvLine rest
    else lineOf c mnemonic (if trimmed rest = [] then [] else pieces ',' rest)
  match after with
  | none => line.map fun l => ⟨l, none⟩
  | some text => line.bind fun l => (expectation? c text).map fun e => ⟨l, some e⟩

/-- The events of a script's lines. "`POWERLOSS k` written directly after the command or `RESET` line it interrupts" is
joined to that operation (R91); elsewhere it is a loss between events (log entry 23). -/
def scriptEvents : List ScriptLine → List Event
  | [] => []
  | .reset :: .powerLoss k :: rest => .reset :: .powerLoss .boot k :: scriptEvents rest
  | .command i :: .powerLoss k :: rest => .powerLoss (.cmd (encode i)) k :: scriptEvents rest
  | .reset :: rest => .reset :: scriptEvents rest
  | .command i :: rest => .cmd (encode i) :: scriptEvents rest
  | .tick sample :: rest => .tick sample :: scriptEvents rest
  | .powerLoss k :: rest => .powerLoss .idle k :: scriptEvents rest
  | .nv _ _ :: rest => scriptEvents rest

/-- The bytes of an `NV` line, from its address up. -/
def Mem.writeBytes (m : Mem) (a : Nat) : List Byte → Mem
  | [] => m
  | b :: bs => Mem.writeBytes (m.write a b) (a + 1) bs

/-- Whether a line is an `NV` line. -/
def ScriptLine.isNv : ScriptLine → Bool
  | .nv _ _ => true
  | _ => false

/-- A script's first line is `RESET`, "optionally preceded by `NV` lines" (R91): the NV content and the event lines. An `NV`
line gives NV bytes, and there are `NV_SIZE` of them (R36, R51); what the assembler does with bytes at or beyond `NV_SIZE` is
open; DESIGN CHOICE: it rejects the script (log entry 23). -/
def splitScript (nvSize : Nat) (m : Mem) : List ScriptLine → Option (Mem × List ScriptLine)
  | .nv a bytes :: rest =>
    if a + bytes.length ≤ nvSize then splitScript nvSize (m.writeBytes a bytes) rest else none
  | .reset :: rest => if rest.any ScriptLine.isNv then none else some (m, .reset :: rest)
  | _ => none

/-- The machine that is about to run a script: without power, the NV content as the script gives it, and the script's
events offered (R91). -/
def loadScript (c : Cfg) (lines : List ScriptLine) : Option State :=
  (splitScript c.nvSize [] lines).map fun p =>
    { cfg := c
      channels := (List.range c.nCh).map (lostChannel 0)
      phase := .boot
      power := .unpowered
      nv := p.1
      trace := []
      responses := []
      inbox := scriptEvents p.2
      serial := 1 }

end Sys2Proof.Machine
end

