-- ==== Sys2Proof/Safety.lean ====
section
/-! DEFINITION. The terms in which claims speak: the fields of a response word as R86 places them, and the invariants that
every step keeps. HCE has no error state (spec/60_exceptions.md R206); what must hold is that the record stays in shape,
that offsets stay in their bounds (R24), and that the working copies and the store agree (R27, R137). -/

namespace Sys2Proof.Machine

/-- The word `w` is the response with this status code, these flags and these two values, read off bits 63:56, 55:48,
31:16 and 15:0, with bits 47:32 zero (R86). -/
structure IsResponse (w : Word64) (status flags : Byte) (v1 v0 : Fx) : Prop where
  status_eq : w.extractLsb' 56 8 = status
  flags_eq : w.extractLsb' 48 8 = flags
  reserved_eq : w.extractLsb' 32 16 = 0#16
  v1_eq : w.extractLsb' 16 16 = v1
  v0_eq : w.extractLsb' 0 16 = v0

/-- The response port after `w` has been delivered, and nothing else changed. -/
def State.answered (s : State) (w : Word64) : State := { s with responses := s.responses ++ [w] }

/-- `t` is `s` after a command that delivered `w`, but for the channel registers and the NV memory: no other field of the
state differs. -/
structure SameOutside (s t : State) (w : Word64) : Prop where
  cfg_eq : t.cfg = s.cfg
  phase_eq : t.phase = s.phase
  power_eq : t.power = s.power
  trace_eq : t.trace = s.trace
  inbox_eq : t.inbox = s.inbox
  serial_eq : t.serial = s.serial
  responses_eq : t.responses = s.responses ++ [w]

/-- The address lies in the four bytes of block `i` that hold its two fields (R56). -/
def inBlock (c : Cfg) (i a : Nat) : Prop := blockAddr c i ≤ a ∧ a < blockAddr c i + 4

/-- From `s` to `t` the working pair of channel `i` and the two fields of its block have become `(on, off)`: no other
register, of this or another channel, and no byte outside the block's fields differs (R136, R154). -/
structure PairCommitted (s t : State) (i : Nat) (on off : Fx) : Prop where
  length_eq : t.channels.length = s.channels.length
  chan_eq : t.chan i = { s.chan i with coolOn := on, coolOff := off }
  others_eq : ∀ j, j ≠ i → t.chan j = s.chan j
  stored_on : t.nv.readField (blockAddr s.cfg i) = on
  stored_off : t.nv.readField (blockAddr s.cfg i + 2) = off
  memory_eq : ∀ a, ¬ inBlock s.cfg i a → t.nv.read a = s.nv.read a

/-- The channel whose thresholds a command may write: `ST.WRTHR` and the four `ADJ.ON.*`, `ADJ.OFF.*` (R21). `ST.INITDEF`
writes those of every channel. -/
def thresholdChannel? : Instr → Option Byte
  | .stWrthr ch _ _ => some ch
  | .adjOnInc ch => some ch
  | .adjOnDec ch => some ch
  | .adjOffInc ch => some ch
  | .adjOffDec ch => some ch
  | .fadd _ _ | .fcmp _ _ | .fclamp _ _ _ | .stIsinit | .stInitdef | .stRdthr _ => none
  | .adjOfsInc _ | .adjOfsDec _ | .getReading _ | .getCoolon _ | .getCooloff _ | .getOffset _ => none

/-- The channel whose offset a command may write: the two `ADJ.OFS.*` (R21). -/
def offsetChannel? : Instr → Option Byte
  | .adjOfsInc ch => some ch
  | .adjOfsDec ch => some ch
  | .fadd _ _ | .fcmp _ _ | .fclamp _ _ _ | .stIsinit | .stInitdef | .stRdthr _ | .stWrthr _ _ _ => none
  | .adjOnInc _ | .adjOnDec _ | .adjOffInc _ | .adjOffDec _ => none
  | .getReading _ | .getCoolon _ | .getCooloff _ | .getOffset _ => none

/-- The status code that a command word must be answered with, by the order of checks of R208: (1) illegal, (2) bad
channel, (3) not initialised, (4) out of range, (5) otherwise `OK`. -/
def expectedStatus (s : State) : Option Instr → Byte
  | none => 0x03
  | some i =>
    if i.wellFormed s.cfg.nCh = false then 0x04
    else match i with
      | .stRdthr _ => if s.nv.read s.cfg.markerAddr = s.cfg.markerValue then 0x00 else 0x01
      | .stWrthr _ on off => if validPair s.cfg on.toInt off.toInt then 0x00 else 0x02
      | .adjOnInc ch =>
        if validPair s.cfg ((s.chan ch.toNat).coolOn.toInt + s.cfg.tStep) (s.chan ch.toNat).coolOff.toInt then 0x00 else 0x02
      | .adjOnDec ch =>
        if validPair s.cfg ((s.chan ch.toNat).coolOn.toInt - s.cfg.tStep) (s.chan ch.toNat).coolOff.toInt then 0x00 else 0x02
      | .adjOffInc ch =>
        if validPair s.cfg (s.chan ch.toNat).coolOn.toInt ((s.chan ch.toNat).coolOff.toInt + s.cfg.tStep) then 0x00 else 0x02
      | .adjOffDec ch =>
        if validPair s.cfg (s.chan ch.toNat).coolOn.toInt ((s.chan ch.toNat).coolOff.toInt - s.cfg.tStep) then 0x00 else 0x02
      | .adjOfsInc ch => if (s.chan ch.toNat).offset.toInt + s.cfg.ofsStep ≤ s.cfg.ofsMax ∧
          s.cfg.ofsMin ≤ (s.chan ch.toNat).offset.toInt + s.cfg.ofsStep then 0x00 else 0x02
      | .adjOfsDec ch => if (s.chan ch.toNat).offset.toInt - s.cfg.ofsStep ≤ s.cfg.ofsMax ∧
          s.cfg.ofsMin ≤ (s.chan ch.toNat).offset.toInt - s.cfg.ofsStep then 0x00 else 0x02
      | .fadd _ _ | .fcmp _ _ | .fclamp _ _ _ | .stIsinit | .stInitdef => 0x00
      | .getReading _ | .getCoolon _ | .getCooloff _ | .getOffset _ => 0x00

/-- The states of a channel after each of a sequence of corrected readings, with fixed thresholds (R150). -/
def actsAlong (st : Act) (on off : Int) : List Int → List Act
  | [] => []
  | r :: rs => nextAct st r on off :: actsAlong (nextAct st r on off) on off rs

/-- How often the state changes along a sequence of states that follows `st`. -/
def changesAlong (st : Act) : List Act → Nat
  | [] => 0
  | a :: as => (if a = st then 0 else 1) + changesAlong a as

/-- The record is in shape: the constants satisfy R8 and R9, the register file has `N` records (R21), and the NV memory is
in canonical form with no byte at or beyond `NV_SIZE` (R51). -/
abbrev State.Shaped (s : State) : Prop :=
  s.cfg.Wf ∧ s.channels.length = s.cfg.nCh ∧ Mem.Wf s.nv ∧ ∀ c ∈ s.nv, c.1 < s.cfg.nvSize

/-- Every offset is in `[OFS_MIN, OFS_MAX]` (R24). -/
abbrev State.OffsetsInRange (s : State) : Prop :=
  ∀ c ∈ s.channels, s.cfg.ofsMin ≤ sext16 c.offset ∧ sext16 c.offset ≤ s.cfg.ofsMax

/-- Store coherence: the marker byte equals `MARKER_VALUE`, and every working copy equals its NV field (R27). -/
abbrev State.Coherent (s : State) : Prop :=
  isInit s.cfg s.nv = true ∧
  ∀ i < s.cfg.nCh, (s.chan i).coolOn = storedOn s.cfg s.nv i ∧ (s.chan i).coolOff = storedOff s.cfg s.nv i

/-- Power is there and `phase == RUN`: HCE takes events (R28). -/
abbrev State.Running (s : State) : Prop := s.power = .powered ∧ s.phase = .run

/-- The invariant of the machine: shape always, R24 while there is power, R27 and R137 in `RUN`. -/
abbrev State.Inv (s : State) : Prop :=
  s.Shaped ∧ (s.power = .powered → s.OffsetsInRange) ∧ (s.Running → s.Coherent)

end Sys2Proof.Machine
end

