-- ==== Sys2Proof/Certificates/Slice0/Obligations.lean ====
section
/-! DEFINITION. The statements for the provers. Each docstring says which rule of spec/ it formalises; what a statement leaves
to the model's own choices is named by its log entry. Draws (`Config.freeFx`, `Config.freeBit`, `Config.freeToFixed`) have no
value that any statement could use. -/

open Sys2Proof Sys2Proof.Machine

/-! ## Encoding -/

/-- R88, its worked words, both ways, with its decimal operands and its two responses. -/
def Obligations.WorkedEncodingsOfR88 : Prop :=
  toFixed? 20 4 = some 320#16 ∧ toFixed? 18 4 = some 288#16 ∧
  encode (.stWrthr 0 320 288) = 0x1300000001200140#64 ∧ decode 0x1300000001200140#64 = some (.stWrthr 0 320 288) ∧
  encode (.fadd 0xFFFF 1) = 0x010000000001FFFF#64 ∧ decode 0x010000000001FFFF#64 = some (.fadd 0xFFFF 1) ∧
  encode (.getOffset 7) = 0x3307000000000000#64 ∧ decode 0x3307000000000000#64 = some (.getOffset 7) ∧
  encode (.fclamp 900 0xFEC0 800) = 0x03000320FEC00384#64 ∧ decode 0x03000320FEC00384#64 = some (.fclamp 900 0xFEC0 800) ∧
  respond .ok 0 0 (zext16 (-320)) = 0x000000000000FEC0#64 ∧ respond .errOutOfRange 0 0 (zext16 288) = 0x0200000000000120#64

/-- One word of each family and of each format, written out bit by bit from R81 and R84, decodes to its command. -/
def Obligations.FamilyWordsDecodeAsR84Says : Prop :=
  decode 0b0000001000000000000000000000000000000001001000000000000101000000#64 = some (.fcmp 320 288) ∧
  decode 0b0001000000000000000000000000000000000000000000000000000000000000#64 = some .stIsinit ∧
  decode 0b0001001000000101000000000000000000000000000000000000000000000000#64 = some (.stRdthr 5) ∧
  decode 0b0010001100000111000000000000000000000000000000000000000000000000#64 = some (.adjOffDec 7) ∧
  decode 0b0011000011111111000000000000000000000000000000000000000000000000#64 = some (.getReading 255) ∧
  decode 0b0001001100000000000000000000000100000001001000000000000101000000#64 = none

/-- R81, R82, R84: decoding the encoding of any command, with every operand at every value, gives the command back. -/
def Obligations.DecodeOfEncodeIsTheCommand : Prop := ∀ i : Instr, decode (encode i) = some i

/-- R81, R82, R84: a word that decodes is the one encoding of its command, so each word has at most one meaning and no bit of
it is ignored. -/
def Obligations.DecodedWordIsTheEncoding : Prop := ∀ (w : Word64) (i : Instr), decode w = some i → encode i = w

/-- R82, R85: the legal words are exactly those with an opcode of the table whose reserved fields are zero; "A field a format
does not use is reserved and must be zero". -/
def Obligations.LegalWordsAreThoseWithZeroReservedFields : Prop :=
  ∀ w : Word64,
    let op := w.extractLsb' 56 8
    let ch := w.extractLsb' 48 8
    let c := w.extractLsb' 32 16
    let b := w.extractLsb' 16 16
    let a := w.extractLsb' 0 16
    decode w ≠ none ↔
      ((op = 0x01#8 ∨ op = 0x02#8) ∧ ch = 0#8 ∧ c = 0#16) ∨
      (op = 0x03#8 ∧ ch = 0#8) ∨
      ((op = 0x10#8 ∨ op = 0x11#8) ∧ ch = 0#8 ∧ c = 0#16 ∧ b = 0#16 ∧ a = 0#16) ∨
      ((op = 0x12#8 ∨ op = 0x20#8 ∨ op = 0x21#8 ∨ op = 0x22#8 ∨ op = 0x23#8 ∨ op = 0x24#8 ∨ op = 0x25#8 ∨
        op = 0x30#8 ∨ op = 0x31#8 ∨ op = 0x32#8 ∨ op = 0x33#8) ∧ c = 0#16 ∧ b = 0#16 ∧ a = 0#16) ∨
      (op = 0x13#8 ∧ c = 0#16)

/-- R84: "No two rows can match the same word", and there are seventeen. -/
def Obligations.NoTwoRowsMatchTheSameWord : Prop :=
  opTable.length = 17 ∧ opTable.Pairwise fun r q => ∀ w : Word64, r.selects w = true → q.selects w = false

/-! ## The step -/

/-- R7, R85: in `RUN`, when the next event is a command word that decodes to `i`, the step is `exec i` at the state without
that event. -/
def Obligations.StepRunsTheDecodedCommand : Prop :=
  ∀ (s : State) (w : Word64) (es : List Event) (i : Instr),
    s.cfg.Wf → s.Running → s.inbox = .cmd w :: es → decode w = some i → step s = exec i { s with inbox := es }

/-- R85, whole: a word that no row of the table matches is illegal and answers `ERR_ILLEGAL`, a legal `CH` or `CHAB` word with `ch >= N` answers `ERR_BAD_CHANNEL`, and
both change nothing else; any other word executes its row's rule. -/
def Obligations.DecodingOrderOfR85 : Prop :=
  ∀ (s : State) (w : Word64) (es : List Event), s.cfg.Wf → s.Running → s.inbox = .cmd w :: es →
    (decode w = none ↔ ∀ r ∈ opTable, w &&& r.format.mask ≠ r.matchWord) ∧
    (decode w = none →
      ∃ r, step s = .next (State.answered { s with inbox := es } r) ∧ IsResponse r 0x03 0 0 0) ∧
    (∀ i ch, decode w = some i → i.channel? = some ch → s.cfg.nCh ≤ ch.toNat →
      ∃ r, step s = .next (State.answered { s with inbox := es } r) ∧ IsResponse r 0x04 0 0 0) ∧
    (∀ i, decode w = some i → i.wellFormed s.cfg.nCh = true → step s = exec i { s with inbox := es })

/-- R208: the status of every command word's answer follows the order of checks, first match wins; and every command word is
answered in every state that takes commands. -/
def Obligations.StatusFollowsTheOrderOfChecks : Prop :=
  ∀ (s : State) (w : Word64) (es : List Event), s.cfg.Wf → s.Running → s.inbox = .cmd w :: es →
    ∃ t r, step s = .next t ∧ t.responses = s.responses ++ [r] ∧ r.extractLsb' 56 8 = expectedStatus s (decode w)

/-- R7, R8, R35, R234: a step takes at most the first waiting event and drops none, delivers exactly one response for a command
taken and none otherwise, and never changes the constants. -/
def Obligations.StepTakesAtMostOneEvent : Prop :=
  ∀ s t : State, step s = .next t →
    t.cfg = s.cfg ∧ (t.inbox = s.inbox ∨ ∃ e, s.inbox = e :: t.inbox) ∧
    ((∃ w es, s.Running ∧ s.inbox = .cmd w :: es ∧ t.inbox = es ∧ ∃ r, t.responses = s.responses ++ [r]) ∨
      ((∀ w es, s.Running → s.inbox ≠ .cmd w :: es) ∧ t.responses = s.responses))

/-- R9, U12: a record of constants that breaks R8 or R9 is no configuration of HCE. The refusal is the model's choice (log
entry 2). -/
def Obligations.NoStepWithoutAConfiguration : Prop :=
  ∀ s : State, ¬ s.cfg.Wf → step s = .refused .notAConfiguration

/-! ## Whole-machine rules about commands -/

/-- R86, R87, R201, U17: every command is answered by exactly one word, whose reserved bits are zero, whose status is a code of
the table other than `ERR_ILLEGAL`, and which carries neither flags nor `V1` when it is an error. -/
def Obligations.EveryResponseWordIsWellFormed : Prop :=
  ∀ (i : Instr) (s : State), ∃ t w, exec i s = .next t ∧ t.responses = s.responses ++ [w] ∧
    w.extractLsb' 32 16 = 0#16 ∧ w.extractLsb' 54 2 = 0#2 ∧
    w.extractLsb' 56 8 ∈ [0x00#8, 0x01#8, 0x02#8, 0x04#8] ∧
    (w.extractLsb' 56 8 ≠ 0x00#8 → w.extractLsb' 48 8 = 0#8 ∧ w.extractLsb' 16 16 = 0#16)

/-- R203, R206: "a command that answers with an error code has had no effect at all on registers, NV memory or outputs". -/
def Obligations.ErrorsHaveNoEffectAtAll : Prop :=
  ∀ (i : Instr) (s : State), ∃ t w, exec i s = .next t ∧ t.responses = s.responses ++ [w] ∧
    (w.extractLsb' 56 8 ≠ 0x00#8 → t = s.answered w ∧ (transaction i s).writes = [])

/-- R21, R26, R165 (the frame of all commands): no command writes `reading`, `rdValid`, `act`, the constants, the phase, the
power, the output trace or the waiting events; only `ADJ.OFS.*` write an offset and only that of their channel; only
`ST.INITDEF`, `ST.WRTHR`, `ADJ.ON.*`, `ADJ.OFF.*` write a threshold or an NV byte, the last three only those of their channel. -/
def Obligations.CommandsWriteOnlyWhatTheTableSays : Prop :=
  ∀ (i : Instr) (s t : State), exec i s = .next t →
    t.cfg = s.cfg ∧ t.phase = s.phase ∧ t.power = s.power ∧ t.trace = s.trace ∧ t.inbox = s.inbox ∧
    t.channels.length = s.channels.length ∧
    (∀ j, (t.chan j).reading = (s.chan j).reading ∧ (t.chan j).rdValid = (s.chan j).rdValid ∧
      (t.chan j).act = (s.chan j).act) ∧
    (∀ j, (∀ ch, offsetChannel? i = some ch → ch.toNat ≠ j) → (t.chan j).offset = (s.chan j).offset) ∧
    (i ≠ .stInitdef → ∀ j, (∀ ch, thresholdChannel? i = some ch → ch.toNat ≠ j) →
      (t.chan j).coolOn = (s.chan j).coolOn ∧ (t.chan j).coolOff = (s.chan j).coolOff) ∧
    (i ≠ .stInitdef → ∀ a, (∀ ch, thresholdChannel? i = some ch → ¬ inBlock s.cfg ch.toNat a) →
      t.nv.read a = s.nv.read a)

/-- R61, R63: how many NV writes each command makes: `2N + 1` for `ST.INITDEF`, 2 for a committed `ST.WRTHR`, `ADJ.ON.*` or
`ADJ.OFF.*`, none for every other command and for every command that is rejected; and a completed command has made them all. -/
def Obligations.NvWritesOfEachCommand : Prop :=
  ∀ (i : Instr) (s : State),
    (commandWrites (encode i) s).length =
      (if i = .stInitdef then 2 * s.cfg.nCh + 1
       else if (thresholdChannel? i).isSome ∧ expectedStatus s (some i) = 0x00 then 2 else 0) ∧
    ∃ t, exec i s = .next t ∧ t.nv = s.nv.applyAll (commandWrites (encode i) s)

/-! ## The fixed-point unit -/

/-- R111: `FADD` answers the exact sum when it is a 16-bit value; else `OK` with `OVF` and a value that nothing fixes. It reads
and writes no register and no NV byte (the model's draw counter apart). -/
def Obligations.FaddAnswersTheExactSum : Prop :=
  ∀ (a b : Fx) (s : State),
    encode (.fadd a b) = 0x01#8 ++ 0x00#8 ++ 0x0000#16 ++ b ++ a ∧
    (-32768 ≤ a.toInt + b.toInt → a.toInt + b.toInt ≤ 32767 →
      ∃ w v, exec (.fadd a b) s = .next (s.answered w) ∧ IsResponse w 0x00 0x00 0 v ∧ v.toInt = a.toInt + b.toInt) ∧
    (a.toInt + b.toInt < -32768 ∨ 32767 < a.toInt + b.toInt →
      ∃ w, exec (.fadd a b) s = .next (State.answered { s with serial := s.serial + 1 } w) ∧
        IsResponse w 0x00 0x08 0 (Config.freeFx s.serial 0))

/-- R112: `FCMP` sets exactly one of `LT`, `EQ`, `GT` by the signed comparison of every pair of inputs, and nothing else. -/
def Obligations.FcmpComparesSigned : Prop :=
  ∀ (a b : Fx) (s : State),
    encode (.fcmp a b) = 0x02#8 ++ 0x00#8 ++ 0x0000#16 ++ b ++ a ∧
    (a.toInt < b.toInt → ∃ w, exec (.fcmp a b) s = .next (s.answered w) ∧ IsResponse w 0x00 0x01 0 0) ∧
    (a = b → ∃ w, exec (.fcmp a b) s = .next (s.answered w) ∧ IsResponse w 0x00 0x02 0 0) ∧
    (b.toInt < a.toInt → ∃ w, exec (.fcmp a b) s = .next (s.answered w) ∧ IsResponse w 0x00 0x04 0 0)

/-- R113: `FCLAMP` for every three inputs, and for `lo <= hi` the value of `[lo, hi]` nearest to `v`. -/
def Obligations.FclampAnswersTheNearestInRange : Prop :=
  ∀ (v lo hi : Fx) (s : State), encode (.fclamp v lo hi) = 0x03#8 ++ 0x00#8 ++ hi ++ lo ++ v ∧ ∃ w r, exec (.fclamp v lo hi) s = .next (s.answered w) ∧ IsResponse w 0x00 0x00 0 r ∧
    (v.toInt < lo.toInt → r = lo) ∧ (lo.toInt ≤ v.toInt → hi.toInt < v.toInt → r = hi) ∧
    (lo.toInt ≤ v.toInt → v.toInt ≤ hi.toInt → r = v) ∧
    (lo.toInt ≤ hi.toInt → lo.toInt ≤ r.toInt ∧ r.toInt ≤ hi.toInt ∧
      ∀ x : Int, lo.toInt ≤ x → x ≤ hi.toInt → |r.toInt - v.toInt| ≤ |x - v.toInt|)

/-- R116: `toFixed` is in range exactly when `-32768.5 < x < 32767.5` for `x = d * 2^F`; then its value is the integer nearest to
`x`, and at a tie the one farther from zero; and it is odd where both sides are in range. -/
def Obligations.ToFixedRoundsHalfAwayFromZero : Prop :=
  ∀ (d : Rat) (f : Nat),
    ((toFixed? d f).isSome = true ↔ (-32768.5 : Rat) < d * 2 ^ f ∧ d * 2 ^ f < (32767.5 : Rat)) ∧
    (∀ r, toFixed? d f = some r →
      |(r.toInt : Rat) - d * 2 ^ f| ≤ 1 / 2 ∧
      (|(r.toInt : Rat) - d * 2 ^ f| = 1 / 2 → |d * 2 ^ f| < |(r.toInt : Rat)|) ∧
      toFixed d f = r) ∧
    (∀ r q, toFixed? d f = some r → toFixed? (-d) f = some q → q.toInt = -r.toInt)

/-- R118: the round trip of a display value errs by at most half a fractional step, and that of a raw value is exact. -/
def Obligations.ConversionRoundTrips : Prop :=
  (∀ (d : Rat) (f : Nat) (r : Fx), toFixed? d f = some r → |toDisplay r f - d| ≤ 1 / 2 ^ (f + 1)) ∧
  (∀ (r : Fx) (f : Nat), toFixed? (toDisplay r f) f = some r)

/-- R115: the display values that HCE can represent run from `-2^(15-F)` to `2^(15-F) - 2^(-F)` in steps of `2^(-F)`; at `F = 4`
from -2048.0 to 2047.9375 in steps of 0.0625. -/
def Obligations.DisplayValuesOfTheOperatingRange : Prop :=
  (∀ f : Nat, f ≤ 15 → ∀ d : Rat, (∃ r : Fx, toDisplay r f = d) ↔
    ∃ k : Int, d = k * (1 / 2 ^ f) ∧ -(2 ^ (15 - f) : Rat) ≤ d ∧ d ≤ 2 ^ (15 - f) - 1 / 2 ^ f) ∧
  (∀ d : Rat, (∃ r : Fx, toDisplay r 4 = d) ↔ ∃ k : Int, d = k * (0.0625 : Rat) ∧ (-2048 : Rat) ≤ d ∧ d ≤ (2047.9375 : Rat))

/-! ## The NV memory -/

/-- R52 to R55: a byte write sets its byte and no other, a field write sets the low byte at the lower address, the high byte
above it and no other, and both read back. -/
def Obligations.NvReadsReturnTheLatestWrite : Prop :=
  ∀ (m : Mem) (a : Nat), Mem.Wf m →
    (∀ (v : Byte) (b : Nat), (m.write a v).read b = if b = a then v else m.read b) ∧
    (∀ (v : Fx) (b : Nat), ((m.writeField a v).read b).toNat =
      if b = a then v.toNat % 256 else if b = a + 1 then v.toNat / 256 else (m.read b).toNat) ∧
    (∀ v : Fx, (m.writeField a v).readField a = v) ∧
    (m.readField a).toNat = (m.read a).toNat + 256 * (m.read (a + 1)).toNat

/-- R51, and the model's canonical form (log entry 3): every sequence of writes keeps the form, and two memories in the form
that read the same at every address are equal. -/
def Obligations.NvMemoryHasOneForm : Prop :=
  (∀ (m : Mem) (ws : List NvWrite), Mem.Wf m → Mem.Wf (m.applyAll ws)) ∧
  (∀ m n : Mem, Mem.Wf m → Mem.Wf n → (∀ a, m.read a = n.read a) → m = n)

/-- R56, R57, R9: the blocks of different channels, each of `BLOCK_SIZE` bytes with its padding, share no byte, the marker lies
in none, every byte of every block is in the memory, and the four bytes of its two fields are in the block. -/
def Obligations.BlocksAndMarkerAreApart : Prop :=
  ∀ c : Cfg, c.Wf → ∀ i, i < c.nCh →
    (∀ a, blockAddr c i ≤ a → a < blockAddr c i + c.blockSize → a < c.nvSize ∧ a ≠ c.markerAddr) ∧
    (∀ j, j < c.nCh → j ≠ i → ∀ a, blockAddr c i ≤ a → a < blockAddr c i + c.blockSize →
      ¬ (blockAddr c j ≤ a ∧ a < blockAddr c j + c.blockSize)) ∧
    (∀ a, inBlock c i a → blockAddr c i ≤ a ∧ a < blockAddr c i + c.blockSize) ∧
    blockAddr c i = c.blockBase + i * c.blockSize

/-! ## The calibration store -/

/-- R131: `ST.ISINIT` answers whether the marker byte equals `MARKER_VALUE`, and changes nothing. -/
def Obligations.StIsinitAnswersTheMarker : Prop :=
  encode .stIsinit = 0x1000000000000000#64 ∧ ∀ s : State, ∃ w, exec .stIsinit s = .next (s.answered w) ∧
    IsResponse w 0x00 (if s.nv.read s.cfg.markerAddr = s.cfg.markerValue then 0x20 else 0x00) 0 0

/-- R133: `ST.INITDEF` writes every block and then the marker, in that order, and every working pair; it touches no other
register and no other byte, and cannot be rejected. -/
def Obligations.StInitdefInitialisesEveryChannel : Prop :=
  ∀ s : State, s.Shaped → ∃ t w, exec .stInitdef s = .next t ∧ IsResponse w 0x00 0x00 0 0 ∧ SameOutside s t w ∧
    t.channels.length = s.channels.length ∧
    (∀ i, i < s.cfg.nCh →
      (t.chan i).coolOn.toInt = s.cfg.defaultOn ∧ (t.chan i).coolOff.toInt = s.cfg.defaultOff ∧
      (t.chan i).offset = (s.chan i).offset ∧ (t.chan i).reading = (s.chan i).reading ∧
      (t.chan i).rdValid = (s.chan i).rdValid ∧ (t.chan i).act = (s.chan i).act ∧
      (t.nv.readField (blockAddr s.cfg i)).toInt = s.cfg.defaultOn ∧
      (t.nv.readField (blockAddr s.cfg i + 2)).toInt = s.cfg.defaultOff) ∧
    t.nv.read s.cfg.markerAddr = s.cfg.markerValue ∧
    (∀ a, a ≠ s.cfg.markerAddr → (∀ i, i < s.cfg.nCh → ¬ inBlock s.cfg i a) → t.nv.read a = s.nv.read a) ∧
    (∃ ws, commandWrites (encode .stInitdef) s = ws ∧ ws.length = 2 * s.cfg.nCh + 1 ∧
      (∀ i, i < s.cfg.nCh →
        ws[2 * i]? = some (.field (blockAddr s.cfg i) (zext16 s.cfg.defaultOn)) ∧
        ws[2 * i + 1]? = some (.field (blockAddr s.cfg i + 2) (zext16 s.cfg.defaultOff))) ∧
      ws[2 * s.cfg.nCh]? = some (.byte s.cfg.markerAddr s.cfg.markerValue))

/-- R134: `ST.RDTHR` answers the two fields of the NV block, as read, or `ERR_NOT_INIT` when the marker is not valid, or
`ERR_BAD_CHANNEL`; it changes nothing. -/
def Obligations.StRdthrReadsTheBlock : Prop :=
  ∀ (ch : Byte) (s : State),
    encode (.stRdthr ch) = 0x12#8 ++ ch ++ 0x0000#16 ++ 0x0000#16 ++ 0x0000#16 ∧
    (s.cfg.nCh ≤ ch.toNat → ∃ w, exec (.stRdthr ch) s = .next (s.answered w) ∧ IsResponse w 0x04 0x00 0 0) ∧
    (ch.toNat < s.cfg.nCh → s.nv.read s.cfg.markerAddr = s.cfg.markerValue →
      ∃ w, exec (.stRdthr ch) s = .next (s.answered w) ∧
        IsResponse w 0x00 0x00 (s.nv.readField (s.cfg.blockBase + ch.toNat * s.cfg.blockSize + 2))
          (s.nv.readField (s.cfg.blockBase + ch.toNat * s.cfg.blockSize))) ∧
    (ch.toNat < s.cfg.nCh → s.nv.read s.cfg.markerAddr ≠ s.cfg.markerValue →
      ∃ w, exec (.stRdthr ch) s = .next (s.answered w) ∧ IsResponse w 0x01 0x00 0 0)

/-- R136: `ST.WRTHR` of a valid pair commits it to the block, `coolOn` field first, and to the working copies, and to nothing
else; a pair that is not valid is rejected with no effect. -/
def Obligations.StWrthrCommitsOrRejects : Prop :=
  ∀ (ch : Byte) (on off : Fx) (s : State),
    encode (.stWrthr ch on off) = 0x13#8 ++ ch ++ 0x0000#16 ++ off ++ on ∧
    (s.cfg.nCh ≤ ch.toNat → ∃ w, exec (.stWrthr ch on off) s = .next (s.answered w) ∧ IsResponse w 0x04 0x00 0 0) ∧
    (s.Shaped → ch.toNat < s.cfg.nCh → validPair s.cfg on.toInt off.toInt = true →
      ∃ t w, exec (.stWrthr ch on off) s = .next t ∧ IsResponse w 0x00 0x00 off on ∧ SameOutside s t w ∧
        PairCommitted s t ch.toNat on off ∧
        commandWrites (encode (.stWrthr ch on off)) s =
          [.field (blockAddr s.cfg ch.toNat) on, .field (blockAddr s.cfg ch.toNat + 2) off]) ∧
    (ch.toNat < s.cfg.nCh → validPair s.cfg on.toInt off.toInt = false →
      ∃ w, exec (.stWrthr ch on off) s = .next (s.answered w) ∧ IsResponse w 0x02 0x00 0 0 ∧
        commandWrites (encode (.stWrthr ch on off)) s = [])

/-- R132, R135: the pair check on any integers, what a valid pair implies, and that the default pair is valid in every
configuration. -/
def Obligations.ValidPairIsBoundsAndStrictOrder : Prop :=
  ∀ c : Cfg,
    (∀ on off : Int, validPair c on off = true ↔
      c.tMin ≤ on ∧ on ≤ c.tMax ∧ c.tMin ≤ off ∧ off ≤ c.tMax ∧ on > off) ∧
    (∀ on off : Int, validPair c on off = true → c.tMin + 1 ≤ on ∧ off ≤ c.tMax - 1) ∧
    (c.Wf → validPair c c.defaultOn c.defaultOff = true)

/-! ## Adjust commands and accessors -/

/-- R153 to R156: `ADJ.ON.INC` and `ADJ.ON.DEC` move `coolOn` by one step and persist the pair, if the exact candidate pair is
valid; otherwise they answer the retained `coolOn` and change nothing. -/
def Obligations.AdjOnStepsCoolOnOrRejects : Prop :=
  ∀ (ch : Byte) (s : State), s.Shaped → ch.toNat < s.cfg.nCh →
    encode (.adjOnInc ch) = 0x20#8 ++ ch ++ 0x0000#16 ++ 0x0000#16 ++ 0x0000#16 ∧
    encode (.adjOnDec ch) = 0x21#8 ++ ch ++ 0x0000#16 ++ 0x0000#16 ++ 0x0000#16 ∧
    ∀ p ∈ [(Instr.adjOnInc ch, (s.chan ch.toNat).coolOn.toInt + s.cfg.tStep),
        (Instr.adjOnDec ch, (s.chan ch.toNat).coolOn.toInt - s.cfg.tStep)],
      (validPair s.cfg p.2 (s.chan ch.toNat).coolOff.toInt = true →
        ∃ t w v, exec p.1 s = .next t ∧ IsResponse w 0x00 0x00 0 v ∧ v.toInt = p.2 ∧ SameOutside s t w ∧
          PairCommitted s t ch.toNat v (s.chan ch.toNat).coolOff) ∧
      (validPair s.cfg p.2 (s.chan ch.toNat).coolOff.toInt = false →
        ∃ w, exec p.1 s = .next (s.answered w) ∧ IsResponse w 0x02 0x00 0 (s.chan ch.toNat).coolOn)

/-- R153, R154, R157, R158: `ADJ.OFF.INC` and `ADJ.OFF.DEC` move `coolOff` by one step and persist the pair, if the exact
candidate pair is valid; otherwise they answer the retained `coolOff` and change nothing. -/
def Obligations.AdjOffStepsCoolOffOrRejects : Prop :=
  ∀ (ch : Byte) (s : State), s.Shaped → ch.toNat < s.cfg.nCh →
    encode (.adjOffInc ch) = 0x22#8 ++ ch ++ 0x0000#16 ++ 0x0000#16 ++ 0x0000#16 ∧
    encode (.adjOffDec ch) = 0x23#8 ++ ch ++ 0x0000#16 ++ 0x0000#16 ++ 0x0000#16 ∧
    ∀ p ∈ [(Instr.adjOffInc ch, (s.chan ch.toNat).coolOff.toInt + s.cfg.tStep),
        (Instr.adjOffDec ch, (s.chan ch.toNat).coolOff.toInt - s.cfg.tStep)],
      (validPair s.cfg (s.chan ch.toNat).coolOn.toInt p.2 = true →
        ∃ t w v, exec p.1 s = .next t ∧ IsResponse w 0x00 0x00 0 v ∧ v.toInt = p.2 ∧ SameOutside s t w ∧
          PairCommitted s t ch.toNat (s.chan ch.toNat).coolOn v) ∧
      (validPair s.cfg (s.chan ch.toNat).coolOn.toInt p.2 = false →
        ∃ w, exec p.1 s = .next (s.answered w) ∧ IsResponse w 0x02 0x00 0 (s.chan ch.toNat).coolOff)

/-- R159, R160: `ADJ.OFS.INC` and `ADJ.OFS.DEC` move the offset of their channel by one step if it stays in its bounds, with no NV
write and no other register written; otherwise they answer the retained offset and change nothing. -/
def Obligations.AdjOfsStepsTheOffsetOrRejects : Prop :=
  ∀ (ch : Byte) (s : State), s.Shaped → ch.toNat < s.cfg.nCh →
    encode (.adjOfsInc ch) = 0x24#8 ++ ch ++ 0x0000#16 ++ 0x0000#16 ++ 0x0000#16 ∧
    encode (.adjOfsDec ch) = 0x25#8 ++ ch ++ 0x0000#16 ++ 0x0000#16 ++ 0x0000#16 ∧
    ∀ p ∈ [(Instr.adjOfsInc ch, (s.chan ch.toNat).offset.toInt + s.cfg.ofsStep),
        (Instr.adjOfsDec ch, (s.chan ch.toNat).offset.toInt - s.cfg.ofsStep)],
      (s.cfg.ofsMin ≤ p.2 → p.2 ≤ s.cfg.ofsMax →
        ∃ t w v, exec p.1 s = .next t ∧ IsResponse w 0x00 0x00 0 v ∧ v.toInt = p.2 ∧ SameOutside s t w ∧
          t.nv = s.nv ∧ t.channels.length = s.channels.length ∧
          t.chan ch.toNat = { s.chan ch.toNat with offset := v } ∧ ∀ j, j ≠ ch.toNat → t.chan j = s.chan j) ∧
      (p.2 < s.cfg.ofsMin ∨ s.cfg.ofsMax < p.2 →
        ∃ w, exec p.1 s = .next (s.answered w) ∧ IsResponse w 0x02 0x00 0 (s.chan ch.toNat).offset)

/-- R85, R205: a command with a channel field answers `ERR_BAD_CHANNEL` for every channel that does not exist, and changes
nothing. -/
def Obligations.CommandsOfAbsentChannelsChangeNothing : Prop :=
  ∀ (i : Instr) (ch : Byte) (s : State), i.channel? = some ch → s.cfg.nCh ≤ ch.toNat →
    ∃ w, exec i s = .next (s.answered w) ∧ IsResponse w 0x04 0x00 0 0 ∧ commandWrites (encode i) s = []

/-- R161 to R164: the four accessors answer the named register of their channel, `GET.READING` with `VALID` for `rdValid`, or
`ERR_BAD_CHANNEL`, and change nothing. -/
def Obligations.AccessorsAnswerTheirRegister : Prop :=
  ∀ (ch : Byte) (s : State),
    (∀ p ∈ [(Instr.getReading ch, 0x30#8), (.getCoolon ch, 0x31#8), (.getCooloff ch, 0x32#8), (.getOffset ch, 0x33#8)],
      encode p.1 = p.2 ++ ch ++ 0x0000#16 ++ 0x0000#16 ++ 0x0000#16 ∧
      (s.cfg.nCh ≤ ch.toNat → ∃ w, exec p.1 s = .next (s.answered w) ∧ IsResponse w 0x04 0x00 0 0)) ∧
    (ch.toNat < s.cfg.nCh →
      (∃ w, exec (.getReading ch) s = .next (s.answered w) ∧
        IsResponse w 0x00 (if (s.chan ch.toNat).rdValid then 0x10 else 0x00) 0 (s.chan ch.toNat).reading) ∧
      (∃ w, exec (.getCoolon ch) s = .next (s.answered w) ∧ IsResponse w 0x00 0x00 0 (s.chan ch.toNat).coolOn) ∧
      (∃ w, exec (.getCooloff ch) s = .next (s.answered w) ∧ IsResponse w 0x00 0x00 0 (s.chan ch.toNat).coolOff) ∧
      (∃ w, exec (.getOffset ch) s = .next (s.answered w) ∧ IsResponse w 0x00 0x00 0 (s.chan ch.toNat).offset))

/-! ## The channel controller and the control cycle -/

/-- R150: the transition function, for every state, corrected reading and pair of thresholds. -/
def Obligations.TransitionTestsThePresentStateOnly : Prop :=
  ∀ s on off : Int,
    (nextAct .off s on off = .on ↔ s ≥ on) ∧ (nextAct .on s on off = .off ↔ s ≤ off) ∧
    (off < s → s < on → ∀ st, nextAct st s on off = st)

/-- R151: (a) the hysteresis invariant for every pair of thresholds; (b) with `on > off` at most one change along monotone
readings, counted from the state after the first of them (log entry 30), and at most one in all along a constant reading; (c) with
`on <= s <= off` a change at every evaluation. -/
def Obligations.HysteresisConsequencesOfR151 : Prop :=
  ∀ on off : Int,
    (∀ rs : List Int, (∀ r ∈ rs, off < r) → ∀ a ∈ actsAlong .on on off rs, a = .on) ∧
    (∀ rs : List Int, (∀ r ∈ rs, r < on) → ∀ a ∈ actsAlong .off on off rs, a = .off) ∧
    (off < on → ∀ (st : Act) (r : Int) (rs : List Int),
      ((r :: rs).Pairwise (· ≤ ·) ∨ (r :: rs).Pairwise (· ≥ ·)) →
        changesAlong (nextAct st r on off) (actsAlong (nextAct st r on off) on off rs) ≤ 1) ∧
    (off < on → ∀ (st : Act) (r : Int) (n : Nat),
      changesAlong st (actsAlong st on off (List.replicate n r)) ≤ 1) ∧
    (∀ (st : Act) (s : Int) (n : Nat), on ≤ s → s ≤ off →
      changesAlong st (actsAlong st on off (List.replicate n s)) = n)

/-- R180, R182 to R184, R186: a `TICK` is taken in every state that takes events; every channel with a valid lane takes the
reading and the transition, every faulted channel holds, the `ACT` events of all channels are appended in index order, the
actuator lines follow, and neither the NV memory nor the response port is used. -/
def Obligations.TickStepsEveryChannel : Prop :=
  ∀ (s : State) (sample : List Lane) (es : List Event), s.cfg.Wf → s.channels.length = s.cfg.nCh → s.Running →
    s.inbox = .tick sample :: es → sample.length = s.cfg.nCh →
    ∃ t, step s = .next t ∧ t.Running ∧ t.inbox = es ∧ t.cfg = s.cfg ∧ t.nv = s.nv ∧ t.responses = s.responses ∧
      t.channels.length = s.cfg.nCh ∧
      (∀ i r, sample[i]? = some (.valid r) →
        (t.chan i).reading = r ∧ (t.chan i).rdValid = true ∧ (t.chan i).offset = (s.chan i).offset ∧
        (t.chan i).coolOn = (s.chan i).coolOn ∧ (t.chan i).coolOff = (s.chan i).coolOff ∧
        (-32768 ≤ r.toInt + (s.chan i).offset.toInt → r.toInt + (s.chan i).offset.toInt ≤ 32767 →
          (t.chan i).act = nextAct (s.chan i).act (r.toInt + (s.chan i).offset.toInt)
            (s.chan i).coolOn.toInt (s.chan i).coolOff.toInt)) ∧
      (∀ i, sample[i]? = some .fault → t.chan i = { s.chan i with rdValid := false }) ∧
      t.trace = s.trace ++ (List.range s.cfg.nCh).map (fun i => ⟨i, (t.chan i).act⟩) ∧
      ∀ i, i < s.cfg.nCh → t.line i = some (t.chan i).act

/-- R181, R185: what a `TICK` does to channel `i` depends on the registers and the lane of channel `i` only (and on the model's
draw number); a fault on another channel changes nothing here. -/
def Obligations.TickKeepsChannelsIndependent : Prop :=
  ∀ (s s' t t' : State) (sample sample' : List Lane) (es es' : List Event) (i : Nat),
    s.Running → s'.Running → s.inbox = .tick sample :: es → s'.inbox = .tick sample' :: es' →
    s.serial = s'.serial → s.channels[i]? = s'.channels[i]? → sample[i]? = sample'[i]? →
    step s = .next t → step s' = .next t' → t.channels[i]? = t'.channels[i]?

/-- R182: the readings for which the corrected reading cannot leave the 16-bit range, whatever the offset of the channel. -/
def Obligations.ReadingsInTheWindowNeverOverflow : Prop :=
  ∀ (s : State) (r : Fx), s.OffsetsInRange →
    -32768 - min s.cfg.ofsMin 0 ≤ r.toInt → r.toInt ≤ 32767 - max s.cfg.ofsMax 0 →
    ∀ c ∈ s.channels, inrange (corrected r c) = true

/-- R235, R65: a committed pair acts at the next tick: after `ST.WRTHR` of a valid pair and one `TICK` with a valid sample, the
state of the channel is the transition under the new pair, and the command alone does not change it. -/
def Obligations.CommittedThresholdsActAtTheNextTick : Prop :=
  ∀ (s : State) (ch : Byte) (on off r : Fx) (sample : List Lane) (es : List Event),
    s.Shaped → s.Running → ch.toNat < s.cfg.nCh → validPair s.cfg on.toInt off.toInt = true →
    s.inbox = .cmd (encode (.stWrthr ch on off)) :: .tick sample :: es → sample.length = s.cfg.nCh →
    sample[ch.toNat]? = some (.valid r) → inrange (r.toInt + (s.chan ch.toNat).offset.toInt) = true →
    ∃ t u, step s = .next t ∧ (t.chan ch.toNat).act = (s.chan ch.toNat).act ∧ step t = .next u ∧
      (u.chan ch.toNat).act = nextAct (s.chan ch.toNat).act (r.toInt + (s.chan ch.toNat).offset.toInt) on.toInt off.toInt

/-- R236, R183: while lane `i` reports a fault, `act[i]` and `reading[i]` keep their values, for any number of ticks. -/
def Obligations.FaultedChannelHoldsForEver : Prop :=
  ∀ (samples : List (List Lane)) (s : State) (i : Nat) (es : List Event),
    s.cfg.Wf → s.channels.length = s.cfg.nCh → s.Running → i < s.cfg.nCh →
    (∀ sample ∈ samples, sample.length = s.cfg.nCh ∧ sample[i]? = some .fault) →
    s.inbox = samples.map Event.tick ++ es →
    ∃ t : State, core.run samples.length s = .next t ∧ t.Running ∧ t.inbox = es ∧
      (t.chan i).act = (s.chan i).act ∧ (t.chan i).reading = (s.chan i).reading ∧
      (t.chan i).coolOn = (s.chan i).coolOn ∧ (t.chan i).coolOff = (s.chan i).coolOff ∧
      (t.chan i).offset = (s.chan i).offset ∧ (samples ≠ [] → (t.chan i).rdValid = false)

/-! ## Reset, boot, power -/

/-- R38, the values that the spec gives to the state before boot: `act` OFF, `rdValid` 0, `offset[i] = OFFSET_INIT[i]`, `phase`
`BOOT`, lines OFF, an empty output trace. That no NV byte is listed and that the constants are a configuration are the model's
choices (log entries 3, 1). The values of `reading`, `coolOn`, `coolOff` are the model's too (log entries 4, 5) and stand in no
clause. -/
def Obligations.ResetStateBeforeBoot : Prop :=
  State.reset.cfg.Wf ∧ State.reset.phase = .boot ∧ State.reset.trace = [] ∧ State.reset.nv = [] ∧
  State.reset.channels.length = State.reset.cfg.nCh ∧
  ∀ i, i < State.reset.cfg.nCh →
    (State.reset.chan i).act = .off ∧ (State.reset.chan i).rdValid = false ∧ State.reset.line i = some .off ∧
    some (State.reset.chan i).offset.toInt = State.reset.cfg.offsetInit[i]?

/-- R221, R222, R223: a `RESET`, in any running or unpowered state, and the boot that follows it: the registers as R38's column
"After boot" says, the thresholds as stored, unchecked, if the marker was valid, and otherwise the defaults, written to the
store with the marker; no response and no `ACT` event. -/
def Obligations.ResetAndBootAsR221AndR222 : Prop :=
  ∀ (s : State) (es : List Event), s.cfg.Wf → Mem.Wf s.nv → (s.power = .unpowered ∨ s.phase = .run) →
    s.inbox = .reset :: es → (∀ k es', es ≠ .powerLoss .boot k :: es') →
    ∃ t : State, core.run 2 s = .next t ∧ t.Running ∧ t.inbox = es ∧ t.cfg = s.cfg ∧ t.trace = [] ∧ t.responses = s.responses ∧
      t.channels.length = s.cfg.nCh ∧
      (∀ i, i < s.cfg.nCh → (t.chan i).act = .off ∧ t.line i = some .off ∧ (t.chan i).rdValid = false ∧
        some (t.chan i).offset.toInt = s.cfg.offsetInit[i]?) ∧
      (s.nv.read s.cfg.markerAddr = s.cfg.markerValue → t.nv = s.nv ∧
        ∀ i, i < s.cfg.nCh → (t.chan i).coolOn = s.nv.readField (blockAddr s.cfg i) ∧
          (t.chan i).coolOff = s.nv.readField (blockAddr s.cfg i + 2)) ∧
      (s.nv.read s.cfg.markerAddr ≠ s.cfg.markerValue →
        t.nv.read s.cfg.markerAddr = s.cfg.markerValue ∧
        (∀ i, i < s.cfg.nCh →
          (t.chan i).coolOn.toInt = s.cfg.defaultOn ∧ (t.chan i).coolOff.toInt = s.cfg.defaultOff ∧
          (t.nv.readField (blockAddr s.cfg i)).toInt = s.cfg.defaultOn ∧
          (t.nv.readField (blockAddr s.cfg i + 2)).toInt = s.cfg.defaultOff) ∧
        ∀ a, a ≠ s.cfg.markerAddr → (∀ i, i < s.cfg.nCh → ¬ inBlock s.cfg i a) → t.nv.read a = s.nv.read a)

/-- R226: after boot and before the first `TICK` every channel is OFF with `rdValid` 0; the first valid sample is judged from
OFF, so the channel switches ON exactly when its corrected reading is at or above `coolOn`. -/
def Obligations.FirstTickAfterBootStartsFromOff : Prop :=
  ∀ (s : State) (sample : List Lane) (es : List Event) (i : Nat) (r : Fx), s.cfg.Wf → Mem.Wf s.nv →
    (s.power = .unpowered ∨ s.phase = .run) → s.inbox = .reset :: .tick sample :: es → sample.length = s.cfg.nCh →
    sample[i]? = some (.valid r) →
    ∃ t u : State, core.run 2 s = .next t ∧ step t = .next u ∧
      (∀ j, j < s.cfg.nCh → t.line j = some .off ∧ (t.chan j).rdValid = false) ∧
      (u.chan i).reading = r ∧ (u.chan i).rdValid = true ∧
      (inrange (r.toInt + (t.chan i).offset.toInt) = true →
        ((u.chan i).act = .on ↔ (t.chan i).coolOn.toInt ≤ r.toInt + (t.chan i).offset.toInt))

/-- R28: in `BOOT` no command and no tick is taken: whatever waits, other than a power loss in the boot, waits until `RUN`. -/
def Obligations.EventsWaitWhileBooting : Prop :=
  ∀ s : State, s.cfg.Wf → s.power = .powered → s.phase = .boot → (∀ k es, s.inbox ≠ .powerLoss .boot k :: es) →
    ∃ t, step s = .next t ∧ t.phase = .run ∧ t.inbox = s.inbox ∧ t.responses = s.responses ∧ t.trace = s.trace ∧
      ∀ i, (t.chan i).act = (s.chan i).act ∧ (t.chan i).reading = (s.chan i).reading ∧
        (t.chan i).rdValid = (s.chan i).rdValid ∧ (t.chan i).offset = (s.chan i).offset

/-- R61, R186: a `POWERLOSS(k)` with `0 <= k <= W` leaves exactly the first `k` NV writes of the operation in progress, delivers
no response, leaves the actuator lines undriven, and emits no `ACT` event after the loss: a `TICK` has emitted the first ones of
those it would have. A larger `k` is no event; the model refuses it (log entry 9). -/
def Obligations.PowerLossLeavesTheFirstWrites : Prop :=
  ∀ (s : State) (op : Operation) (k : Nat) (es : List Event), s.cfg.Wf → s.power = .powered →
    (s.phase = .boot ↔ op = .boot) → s.inbox = .powerLoss op k :: es →
    (∀ sample acts, op = .tick sample acts → sample.length = s.cfg.nCh ∧ acts ≤ s.cfg.nCh) →
    (k ≤ (operationWrites op s).length →
      ∃ t, step s = .next t ∧ t.power = .unpowered ∧ t.cfg = s.cfg ∧ t.inbox = es ∧ t.responses = s.responses ∧
        t.nv = s.nv.applyAll ((operationWrites op s).take k) ∧ (∀ i, t.line i = none) ∧
        t.channels.length = s.cfg.nCh ∧
        ((∀ sample n, op ≠ .tick sample n) → t.trace = s.trace) ∧
        (∀ sample n u, op = .tick sample n → step { s with inbox := .tick sample :: es } = .next u →
          t.trace = u.trace.take (s.trace.length + n))) ∧
    ((operationWrites op s).length < k → step s = .refused .powerLossCount)

/-- R61, R212: without power nothing happens but `RESET`; the model refuses any other event (log entry 19). -/
def Obligations.OnlyResetHappensWithoutPower : Prop :=
  ∀ s : State, s.cfg.Wf → s.power = .unpowered →
    (s.inbox = [] → step s = .next s) ∧
    (∀ es, s.inbox = .reset :: es → ∃ t, step s = .next t ∧ t.power = .powered ∧ t.phase = .boot ∧ t.nv = s.nv ∧ t.inbox = es) ∧
    (∀ e es, s.inbox = e :: es → e ≠ .reset → step s = .refused .eventWithoutPower)

/-- R60, R227: a `ST.WRTHR` cut after the first of its two writes leaves a torn block, which the next boot loads unchecked: the
new `coolOn` and the old `coolOff`; every other channel's pair, and the marker, are as they were. -/
def Obligations.TornPairWriteIsLoadedTorn : Prop :=
  ∀ (s : State) (ch : Byte) (on off : Fx) (es : List Event),
    s.Shaped → s.Running → isInit s.cfg s.nv = true → ch.toNat < s.cfg.nCh → validPair s.cfg on.toInt off.toInt = true →
    s.inbox = .powerLoss (.cmd (encode (.stWrthr ch on off))) 1 :: .reset :: es → (∀ k es', es ≠ .powerLoss .boot k :: es') →
    ∃ t : State, core.run 3 s = .next t ∧ t.Running ∧ isInit t.cfg t.nv = true ∧
      (t.chan ch.toNat).coolOn = on ∧ (t.chan ch.toNat).coolOff = storedOff s.cfg s.nv ch.toNat ∧
      ∀ j, j < s.cfg.nCh → j ≠ ch.toNat →
        (t.chan j).coolOn = storedOn s.cfg s.nv j ∧ (t.chan j).coolOff = storedOff s.cfg s.nv j

/-- R154: "a single adjust step cannot tear a block: every outcome is either the pair before or the pair after the step". -/
def Obligations.AdjustStepCannotTearABlock : Prop :=
  ∀ (s t u : State) (i : Instr) (ch : Byte) (k : Nat) (es : List Event),
    s.Shaped → s.Running → s.Coherent → ch.toNat < s.cfg.nCh →
    i ∈ [Instr.adjOnInc ch, .adjOnDec ch, .adjOffInc ch, .adjOffDec ch] →
    s.inbox = .powerLoss (.cmd (encode i)) k :: es → step s = .next t → exec i s = .next u →
    (storedOn s.cfg t.nv ch.toNat = storedOn s.cfg s.nv ch.toNat ∧
      storedOff s.cfg t.nv ch.toNat = storedOff s.cfg s.nv ch.toNat) ∨
    (storedOn s.cfg t.nv ch.toNat = storedOn s.cfg u.nv ch.toNat ∧
      storedOff s.cfg t.nv ch.toNat = storedOff s.cfg u.nv ch.toNat)

/-- R224: a first initialisation cut after `k <= 2N` writes leaves the marker invalid, and the next `RESET` initialises
everything; cut after `2N + 1` writes it has initialised everything; and on an initialised store boot writes nothing. -/
def Obligations.FirstInitialisationIsRestartable : Prop :=
  ∀ (s : State) (es : List Event), s.cfg.Wf → Mem.Wf s.nv → s.power = .powered → s.phase = .boot →
    (isInit s.cfg s.nv = true → bootWrites s = []) ∧
    (isInit s.cfg s.nv = false → (bootWrites s).length = 2 * s.cfg.nCh + 1 ∧
      ∀ k, s.inbox = .powerLoss .boot k :: .reset :: es → (∀ k' es', es ≠ .powerLoss .boot k' :: es') →
        (k ≤ 2 * s.cfg.nCh → ∃ t, step s = .next t ∧ isInit s.cfg t.nv = false) ∧
        (k = 2 * s.cfg.nCh + 1 → ∃ t, step s = .next t ∧ isInit s.cfg t.nv = true ∧
          ∀ i, i < s.cfg.nCh → (storedOn s.cfg t.nv i).toInt = s.cfg.defaultOn ∧
            (storedOff s.cfg t.nv i).toInt = s.cfg.defaultOff) ∧
        (k ≤ 2 * s.cfg.nCh + 1 → ∃ t : State, core.run 3 s = .next t ∧ t.Running ∧ t.Coherent ∧
          ∀ i, i < s.cfg.nCh → (t.chan i).coolOn.toInt = s.cfg.defaultOn ∧ (t.chan i).coolOff.toInt = s.cfg.defaultOff))

/-- R133, its power-loss corner case: a `ST.INITDEF` on an initialised store cut after `k <= 2N` writes leaves the marker valid,
the blocks below `k div 2` at the defaults, block `k div 2` torn if `k` is odd, and the rest as they were. -/
def Obligations.InterruptedInitdefLeavesAPrefix : Prop :=
  ∀ (s t : State) (k : Nat) (es : List Event), s.Shaped → s.Running → isInit s.cfg s.nv = true → k ≤ 2 * s.cfg.nCh →
    s.inbox = .powerLoss (.cmd (encode .stInitdef)) k :: es → step s = .next t →
    isInit s.cfg t.nv = true ∧
    ∀ i, i < s.cfg.nCh →
      (i < k / 2 → (storedOn s.cfg t.nv i).toInt = s.cfg.defaultOn ∧ (storedOff s.cfg t.nv i).toInt = s.cfg.defaultOff) ∧
      (i = k / 2 → k % 2 = 1 →
        (storedOn s.cfg t.nv i).toInt = s.cfg.defaultOn ∧ storedOff s.cfg t.nv i = storedOff s.cfg s.nv i) ∧
      (i = k / 2 → k % 2 = 0 → storedOn s.cfg t.nv i = storedOn s.cfg s.nv i ∧
        storedOff s.cfg t.nv i = storedOff s.cfg s.nv i) ∧
      (k / 2 < i → storedOn s.cfg t.nv i = storedOn s.cfg s.nv i ∧ storedOff s.cfg t.nv i = storedOff s.cfg s.nv i)

/-- R212, R33: with no event offered, HCE in `RUN` is idle "with all state held"; and each actuator line is at `act[i]`. -/
def Obligations.IdleHoldsAllState : Prop :=
  ∀ s : State, s.cfg.Wf → s.Running → s.channels.length = s.cfg.nCh → s.inbox = [] →
    step s = .next s ∧ ∀ i, i < s.cfg.nCh → s.line i = some (s.chan i).act

/-! ## Invariants -/

/-- R8, R9, R21, R51, R57: every step keeps the record in shape: the constants a configuration, `N` channel records, the NV memory
in canonical form and without a byte at or beyond `NV_SIZE`. -/
def Obligations.StepKeepsTheShape : Prop := ∀ s t : State, s.Shaped → step s = .next t → t.Shaped

/-- R24: "after reset and after every completed event `OFS_MIN <= offset[i] <= OFS_MAX` holds". -/
def Obligations.StepKeepsOffsetsInRange : Prop :=
  ∀ s t : State, s.Shaped → (s.power = .powered → s.OffsetsInRange) → step s = .next t →
    t.power = .powered → t.OffsetsInRange

/-- R27, R137: store coherence. In `RUN` the marker is valid and every working copy equals its NV field; every step keeps it so,
whatever the NV memory held before boot. -/
def Obligations.StepKeepsTheStoreCoherent : Prop :=
  ∀ s t : State, s.Shaped → (s.Running → s.Coherent) → step s = .next t → t.Running → t.Coherent

/-- The invariant of the machine holds in `State.reset` (R24, R27, R38), with the model's reset values (log entries 1, 3). -/
def Obligations.ResetMeetsTheInvariant : Prop := State.reset.Inv

/-! ## Scripts -/

/-- R92: the three forms of a temperature operand, R92's examples at `F = 4`, and the rejection of a value out of range. -/
def Obligations.TemperatureOperandsOfR92 : Prop :=
  (∀ (v : Int) (f : Nat), (-32768 ≤ v ∧ v ≤ 32767 → ∃ u, (Temperature.raw v).value? f = some u ∧ u.toInt = v) ∧
    (v < -32768 ∨ 32767 < v → (Temperature.raw v).value? f = none)) ∧
  (∀ (u : Fx) (f : Nat), (Temperature.field u).value? f = some u) ∧
  (∀ (d : Rat) (f : Nat), (Temperature.display d).value? f = toFixed? d f) ∧
  toFixed? 20 4 = some (zext16 320) ∧ toFixed? (-(1 / 2)) 4 = some (zext16 (-8)) ∧ toFixed? (35 / 2) 4 = some (zext16 280) ∧
  toFixed? (1 / 32) 4 = some (zext16 1) ∧ toFixed? (-(1 / 32)) 4 = some (zext16 (-1))

/-- R91, R93: the expansions of the shorthands, for a valid sample and for a fault, and a `POWERLOSS k` line joined to the command or `RESET` line before it. -/
def Obligations.ScriptLinesExpandAsR91AndR93Say : Prop :=
  (∀ (c : Cfg) (lane : Lane), scriptEvents [tickAll c lane] = [.tick (List.replicate c.nCh lane)]) ∧
  (∀ (c : Cfg) (i : Nat) (lane : Lane), i < c.nCh → ∃ line sample, tick1 c i lane = some line ∧
    scriptEvents [line] = [.tick sample] ∧ sample.length = c.nCh ∧ sample[i]? = some lane ∧
    ∀ j, j < c.nCh → j ≠ i → sample[j]? = some .fault) ∧
  (∀ (ch : Byte) (on off : Fx), scriptEvents [stSet ch on off] = [.cmd (encode (.stWrthr ch on off))]) ∧
  (∀ (i : Instr) (k : Nat), scriptEvents [.command i, .powerLoss k, .reset] = [.powerLoss (.cmd (encode i)) k, .reset]) ∧
  (∀ k : Nat, scriptEvents [.reset, .powerLoss k, .reset] = [.reset, .powerLoss .boot k, .reset])
end

