-- ==== Sys2Proof/Laws/Operands.lean ====
section
/-! SUPPORT. The laws of operands and of the response word: `sext16` and `zext16` are inverse on the range of a raw
temperature, and each field of a response word is where R86 puts it. -/

namespace Sys2Proof.Machine

theorem inrange_iff {x : Int} : inrange x = true ↔ -32768 ≤ x ∧ x ≤ 32767 := by simp [inrange]

/-- Every 16-bit field stands for an integer of the range (R20). -/
theorem sext16_bounds (u : Fx) : -32768 ≤ sext16 u ∧ sext16 u ≤ 32767 := by
  have h1 := BitVec.two_mul_toInt_lt (x := u)
  have h2 := BitVec.le_two_mul_toInt (x := u)
  simp only [sext16]
  omega

@[simp] theorem zext16_sext16 (u : Fx) : zext16 (sext16 u) = u := by simp [zext16, sext16]

theorem sext16_zext16 {x : Int} (h : -32768 ≤ x ∧ x ≤ 32767) : sext16 (zext16 x) = x := by
  simp only [sext16, zext16, BitVec.toInt_ofInt]
  rw [Int.bmod_eq_of_le] <;> omega

theorem sext16_inj {u v : Fx} (h : sext16 u = sext16 v) : u = v := BitVec.eq_of_toInt_eq h

/-! ## The flags (R87) -/

@[simp] theorem mask_lt : Flag.lt.mask = 0x01 := by decide
@[simp] theorem mask_eq : Flag.eq.mask = 0x02 := by decide
@[simp] theorem mask_gt : Flag.gt.mask = 0x04 := by decide
@[simp] theorem mask_ovf : Flag.ovf.mask = 0x08 := by decide
@[simp] theorem mask_valid : Flag.valid.mask = 0x10 := by decide
@[simp] theorem mask_init : Flag.init.mask = 0x20 := by decide

/-! ## The response word (R86) -/

section response
variable (st : Status) (fl : Byte) (v1 v0 : Fx)

@[simp] theorem respond_v0 : (respond st fl v1 v0).extractLsb' 0 16 = v0 := by
  unfold respond
  rw [BitVec.extractLsb'_append_eq_of_add_le (by decide)]
  simp

@[simp] theorem respond_v1 : (respond st fl v1 v0).extractLsb' 16 16 = v1 := by
  unfold respond
  rw [BitVec.extractLsb'_append_eq_of_le (by decide), BitVec.extractLsb'_append_eq_of_add_le (by decide)]
  simp

@[simp] theorem respond_reserved : (respond st fl v1 v0).extractLsb' 32 16 = 0#16 := by
  unfold respond
  rw [BitVec.extractLsb'_append_eq_of_le (by decide), BitVec.extractLsb'_append_eq_of_le (by decide),
    BitVec.extractLsb'_append_eq_of_add_le (by decide)]
  simp

@[simp] theorem respond_flags : (respond st fl v1 v0).extractLsb' 48 8 = fl := by
  unfold respond
  rw [BitVec.extractLsb'_append_eq_of_le (by decide), BitVec.extractLsb'_append_eq_of_le (by decide),
    BitVec.extractLsb'_append_eq_of_le (by decide), BitVec.extractLsb'_append_eq_of_add_le (by decide)]
  simp

@[simp] theorem respond_status : (respond st fl v1 v0).extractLsb' 56 8 = st.code := by
  unfold respond
  rw [BitVec.extractLsb'_append_eq_of_le (by decide), BitVec.extractLsb'_append_eq_of_le (by decide),
    BitVec.extractLsb'_append_eq_of_le (by decide), BitVec.extractLsb'_append_eq_of_le (by decide)]
  simp

/-- The two reserved flag bits of a response are those of its `flags` byte (R87). -/
theorem respond_reservedFlags : (respond st fl v1 v0).extractLsb' 54 2 = fl.extractLsb' 6 2 := by
  unfold respond
  rw [BitVec.extractLsb'_append_eq_of_le (by decide), BitVec.extractLsb'_append_eq_of_le (by decide),
    BitVec.extractLsb'_append_eq_of_le (by decide), BitVec.extractLsb'_append_eq_of_add_le (by decide)]

end response

end Sys2Proof.Machine
end

