-- ==== Sys2Proof/Laws/State.lean ====
section
/-! SUPPORT. One lemma per field per update of the state, so that no later proof unfolds a record update. -/

namespace Sys2Proof.Machine

section complete
variable (s : State) (t : Transaction)
@[simp] theorem complete_cfg : (s.complete t).cfg = s.cfg := rfl
@[simp] theorem complete_channels : (s.complete t).channels = t.channels := rfl
@[simp] theorem complete_phase : (s.complete t).phase = s.phase := rfl
@[simp] theorem complete_power : (s.complete t).power = s.power := rfl
@[simp] theorem complete_nv : (s.complete t).nv = s.nv.applyAll t.writes := rfl
@[simp] theorem complete_trace : (s.complete t).trace = s.trace := rfl
@[simp] theorem complete_responses : (s.complete t).responses = s.responses ++ [t.response] := rfl
@[simp] theorem complete_inbox : (s.complete t).inbox = s.inbox := rfl
@[simp] theorem complete_serial : (s.complete t).serial = t.serial := rfl
end complete

section reply
variable (s : State) (st : Status) (fl : Byte) (v1 v0 : Fx)
@[simp] theorem reply_writes : (s.reply st fl v1 v0).writes = [] := rfl
@[simp] theorem reply_channels : (s.reply st fl v1 v0).channels = s.channels := rfl
@[simp] theorem reply_serial : (s.reply st fl v1 v0).serial = s.serial := rfl
@[simp] theorem reply_response : (s.reply st fl v1 v0).response = respond st fl v1 v0 := rfl
/-- Completing a reply delivers its word and changes nothing else. -/
@[simp] theorem complete_reply : s.complete (s.reply st fl v1 v0) = s.answered (respond st fl v1 v0) := rfl
end reply

section commitPair
variable (s : State) (i : Nat) (on off v1 v0 : Fx)
@[simp] theorem commitPair_writes : (s.commitPair i on off v1 v0).writes = pairWrites s.cfg i on off := rfl
@[simp] theorem commitPair_channels :
    (s.commitPair i on off v1 v0).channels = s.channels.set i ((s.chan i).withPair on off) := rfl
@[simp] theorem commitPair_serial : (s.commitPair i on off v1 v0).serial = s.serial := rfl
@[simp] theorem commitPair_response : (s.commitPair i on off v1 v0).response = respond .ok 0 v1 v0 := rfl
end commitPair

section answered
variable (s : State) (w : Word64)
@[simp] theorem answered_cfg : (s.answered w).cfg = s.cfg := rfl
@[simp] theorem answered_channels : (s.answered w).channels = s.channels := rfl
@[simp] theorem answered_phase : (s.answered w).phase = s.phase := rfl
@[simp] theorem answered_power : (s.answered w).power = s.power := rfl
@[simp] theorem answered_nv : (s.answered w).nv = s.nv := rfl
@[simp] theorem answered_trace : (s.answered w).trace = s.trace := rfl
@[simp] theorem answered_responses : (s.answered w).responses = s.responses ++ [w] := rfl
@[simp] theorem answered_inbox : (s.answered w).inbox = s.inbox := rfl
@[simp] theorem answered_serial : (s.answered w).serial = s.serial := rfl
end answered

section withInbox
variable (s : State) (es : List Event)
@[simp] theorem withInbox_cfg : (s.withInbox es).cfg = s.cfg := rfl
@[simp] theorem withInbox_channels : (s.withInbox es).channels = s.channels := rfl
@[simp] theorem withInbox_phase : (s.withInbox es).phase = s.phase := rfl
@[simp] theorem withInbox_power : (s.withInbox es).power = s.power := rfl
@[simp] theorem withInbox_nv : (s.withInbox es).nv = s.nv := rfl
@[simp] theorem withInbox_trace : (s.withInbox es).trace = s.trace := rfl
@[simp] theorem withInbox_responses : (s.withInbox es).responses = s.responses := rfl
@[simp] theorem withInbox_inbox : (s.withInbox es).inbox = es := rfl
@[simp] theorem withInbox_serial : (s.withInbox es).serial = s.serial := rfl
@[simp] theorem withInbox_chan (i : Nat) : (s.withInbox es).chan i = s.chan i := rfl
end withInbox

section tick
variable (s : State) (sample : List Lane)
@[simp] theorem tick_cfg : (tick sample s).cfg = s.cfg := rfl
@[simp] theorem tick_channels : (tick sample s).channels = tickChannels s.serial sample s.channels := rfl
@[simp] theorem tick_phase : (tick sample s).phase = s.phase := rfl
@[simp] theorem tick_power : (tick sample s).power = s.power := rfl
@[simp] theorem tick_nv : (tick sample s).nv = s.nv := rfl
@[simp] theorem tick_trace :
    (tick sample s).trace = s.trace ++ actEvents (tickChannels s.serial sample s.channels) := rfl
@[simp] theorem tick_responses : (tick sample s).responses = s.responses := rfl
@[simp] theorem tick_inbox : (tick sample s).inbox = s.inbox := rfl
@[simp] theorem tick_serial : (tick sample s).serial = s.serial + 1 := rfl
end tick

section resetRegisters
variable (s : State)
@[simp] theorem resetRegisters_cfg : (resetRegisters s).cfg = s.cfg := rfl
@[simp] theorem resetRegisters_channels :
    (resetRegisters s).channels = (List.range s.cfg.nCh).map (resetChannel s.cfg s.serial) := rfl
@[simp] theorem resetRegisters_phase : (resetRegisters s).phase = .boot := rfl
@[simp] theorem resetRegisters_power : (resetRegisters s).power = .powered := rfl
@[simp] theorem resetRegisters_nv : (resetRegisters s).nv = s.nv := rfl
@[simp] theorem resetRegisters_trace : (resetRegisters s).trace = [] := rfl
@[simp] theorem resetRegisters_responses : (resetRegisters s).responses = s.responses := rfl
@[simp] theorem resetRegisters_inbox : (resetRegisters s).inbox = s.inbox := rfl
@[simp] theorem resetRegisters_serial : (resetRegisters s).serial = s.serial + 1 := rfl
end resetRegisters

section boot
variable (s : State)
@[simp] theorem boot_cfg : (boot s).cfg = s.cfg := rfl
@[simp] theorem boot_channels : (boot s).channels =
    if isInit s.cfg s.nv then loadPairs s.cfg s.nv s.channels else defaultPairs s.cfg s.channels := rfl
@[simp] theorem boot_phase : (boot s).phase = .run := rfl
@[simp] theorem boot_power : (boot s).power = s.power := rfl
@[simp] theorem boot_nv : (boot s).nv = s.nv.applyAll (bootWrites s) := rfl
@[simp] theorem boot_trace : (boot s).trace = s.trace := rfl
@[simp] theorem boot_responses : (boot s).responses = s.responses := rfl
@[simp] theorem boot_inbox : (boot s).inbox = s.inbox := rfl
@[simp] theorem boot_serial : (boot s).serial = s.serial := rfl
end boot

section losePower
variable (op : Operation) (k : Nat) (s : State)
@[simp] theorem losePower_cfg : (losePower op k s).cfg = s.cfg := rfl
@[simp] theorem losePower_channels :
    (losePower op k s).channels = (List.range s.cfg.nCh).map (lostChannel (s.serial + 1)) := rfl
@[simp] theorem losePower_phase : (losePower op k s).phase = .boot := rfl
@[simp] theorem losePower_power : (losePower op k s).power = .unpowered := rfl
@[simp] theorem losePower_nv : (losePower op k s).nv = s.nv.applyAll ((operationWrites op s).take k) := rfl
@[simp] theorem losePower_trace : (losePower op k s).trace = s.trace ++ operationActs op s := rfl
@[simp] theorem losePower_responses : (losePower op k s).responses = s.responses := rfl
@[simp] theorem losePower_inbox : (losePower op k s).inbox = s.inbox := rfl
@[simp] theorem losePower_serial : (losePower op k s).serial = s.serial + 2 := rfl
end losePower

section withPair
variable (c : Channel) (on off : Fx)
@[simp] theorem withPair_reading : (c.withPair on off).reading = c.reading := rfl
@[simp] theorem withPair_rdValid : (c.withPair on off).rdValid = c.rdValid := rfl
@[simp] theorem withPair_offset : (c.withPair on off).offset = c.offset := rfl
@[simp] theorem withPair_coolOn : (c.withPair on off).coolOn = on := rfl
@[simp] theorem withPair_coolOff : (c.withPair on off).coolOff = off := rfl
@[simp] theorem withPair_act : (c.withPair on off).act = c.act := rfl
end withPair

end Sys2Proof.Machine
end

