-- ==== Sys2Proof/Laws/Exec.lean ====
section
/-! SUPPORT. What a command can do, said once: every meaning completes one transaction, and a transaction is a reply without
effect, an overflowing `FADD`, the initialisation, a committed pair, or a committed offset. -/

namespace Sys2Proof.Machine

/-- Every command answers a next state: its transaction, completed. -/
theorem exec_eq (i : Instr) (s : State) : exec i s = .next (s.complete (transaction i s)) := by
  cases i <;> rfl

theorem onChannel_of_lt {s : State} {ch : Byte} (h : ch.toNat < s.cfg.nCh) (rule : Nat → Transaction) :
    s.onChannel ch rule = rule ch.toNat := if_pos h

theorem onChannel_of_le {s : State} {ch : Byte} (h : s.cfg.nCh ≤ ch.toNat) (rule : Nat → Transaction) :
    s.onChannel ch rule = s.reply .errBadChannel 0 0 0 := if_neg (Nat.not_lt.2 h)

/-- Step 2 of R85, for every command with a channel field. -/
theorem transaction_badChannel {i : Instr} {ch : Byte} {s : State} (h : i.channel? = some ch)
    (hn : s.cfg.nCh ≤ ch.toNat) : transaction i s = s.reply .errBadChannel 0 0 0 := by
  cases i <;> simp only [Instr.channel?, reduceCtorEq, Option.some.injEq] at h <;> subst h <;>
    simp only [transaction, stRdthr, stWrthr, adjOnInc, adjOnDec, adjOffInc, adjOffDec, adjOfsInc, adjOfsDec, adjustThr,
      adjustOfs, getReading, getCoolon, getCooloff, getOffset, onChannel_of_le hn]

/-- The word that `respond` builds is the response with those fields. -/
theorem isResponse_respond (st : Status) (fl : Byte) (v1 v0 : Fx) : IsResponse (respond st fl v1 v0) st.code fl v1 v0 :=
  ⟨respond_status _ _ _ _, respond_flags _ _ _ _, respond_reserved _ _ _ _, respond_v1 _ _ _ _, respond_v0 _ _ _ _⟩

/-- The five kinds of transaction. -/
inductive TransactionCase (i : Instr) (s : State) : Transaction → Prop where
  /-- A reply: nothing is written. An error status carries neither flags nor `V1`, and is not `ERR_ILLEGAL`. -/
  | reply (st : Status) (fl : Byte) (v1 v0 : Fx) (hst : st ≠ .errIllegal) (herr : st ≠ .ok → fl = 0 ∧ v1 = 0)
      (hfl : fl.extractLsb' 6 2 = 0#2) : TransactionCase i s (s.reply st fl v1 v0)
  /-- An overflowing `FADD`: a draw is used. -/
  | overflow (a b : Fx) (h : i = .fadd a b) : TransactionCase i s
      { s.reply .ok Flag.ovf.mask 0 (Config.freeFx s.serial 0) with serial := s.serial + 1 }
  /-- `ST.INITDEF`. -/
  | initdef (h : i = .stInitdef) : TransactionCase i s
      { s.reply .ok 0 0 0 with writes := initWrites s.cfg, channels := defaultPairs s.cfg s.channels }
  /-- A committed pair, valid. -/
  | pair (ch : Byte) (on off v1 v0 : Fx) (h : thresholdChannel? i = some ch) (hch : ch.toNat < s.cfg.nCh)
      (hv : ∃ x y, validPair s.cfg x y = true ∧ on = zext16 x ∧ off = zext16 y) :
      TransactionCase i s (s.commitPair ch.toNat on off v1 v0)
  /-- A committed offset, in its bounds. -/
  | offset (ch : Byte) (x : Int) (h : offsetChannel? i = some ch) (hch : ch.toNat < s.cfg.nCh)
      (hx : s.cfg.ofsMin ≤ x ∧ x ≤ s.cfg.ofsMax) : TransactionCase i s
      { s.reply .ok 0 0 (zext16 x) with
        channels := s.channels.set ch.toNat { s.chan ch.toNat with offset := zext16 x } }

theorem adjustThr_case {i : Instr} {ch : Byte} (h : thresholdChannel? i = some ch) (side : Side) (delta : Int) (s : State) :
    TransactionCase i s (adjustThr ch side delta s) := by
  rcases Nat.lt_or_ge ch.toNat s.cfg.nCh with hc | hc
  · simp only [adjustThr]
    rw [onChannel_of_lt hc]
    split
    · next hv => exact .pair ch _ _ _ _ h hc ⟨_, _, hv, rfl, rfl⟩
    · exact .reply _ _ _ _ (by decide) (fun _ => ⟨rfl, rfl⟩) (by decide)
  · simp only [adjustThr]
    rw [onChannel_of_le hc]
    exact .reply _ _ _ _ (by decide) (fun _ => ⟨rfl, rfl⟩) (by decide)

theorem adjustOfs_case {i : Instr} {ch : Byte} (h : offsetChannel? i = some ch) (delta : Int) (s : State) :
    TransactionCase i s (adjustOfs ch delta s) := by
  rcases Nat.lt_or_ge ch.toNat s.cfg.nCh with hc | hc
  · simp only [adjustOfs]
    rw [onChannel_of_lt hc]
    split
    · exact .reply _ _ _ _ (by decide) (fun _ => ⟨rfl, rfl⟩) (by decide)
    · next hv => exact .offset ch _ h hc (by omega)
  · simp only [adjustOfs]
    rw [onChannel_of_le hc]
    exact .reply _ _ _ _ (by decide) (fun _ => ⟨rfl, rfl⟩) (by decide)

/-- A command of one channel that only replies. -/
theorem onChannel_reply_case {i : Instr} (ch : Byte) (s : State) (fl : Nat → Byte) (v1 v0 : Nat → Fx)
    (hfl : ∀ n, (fl n).extractLsb' 6 2 = 0#2) :
    TransactionCase i s (s.onChannel ch fun n => s.reply .ok (fl n) (v1 n) (v0 n)) := by
  rcases Nat.lt_or_ge ch.toNat s.cfg.nCh with hc | hc
  · rw [onChannel_of_lt hc]
    exact .reply _ _ _ _ (by decide) (fun h => absurd rfl h) (hfl _)
  · rw [onChannel_of_le hc]
    exact .reply _ _ _ _ (by decide) (fun _ => ⟨rfl, rfl⟩) (by decide)

/-- Every command's transaction is one of the five kinds. -/
theorem transaction_case (i : Instr) (s : State) : TransactionCase i s (transaction i s) := by
  cases i with
  | fadd a b =>
    simp only [transaction, fadd]
    split
    · exact .reply _ _ _ _ (by decide) (fun h => absurd rfl h) (by decide)
    · exact .overflow a b rfl
  | fcmp a b =>
    refine .reply _ _ _ _ (by decide) (fun h => absurd rfl h) ?_
    cases compareFlag (sext16 a) (sext16 b) <;> decide
  | fclamp v lo hi => exact .reply _ _ _ _ (by decide) (fun h => absurd rfl h) (by decide)
  | stIsinit =>
    refine .reply _ _ _ _ (by decide) (fun h => absurd rfl h) ?_
    cases isInit s.cfg s.nv <;> decide
  | stInitdef => exact .initdef rfl
  | stRdthr ch =>
    simp only [transaction, stRdthr]
    by_cases hi : isInit s.cfg s.nv = true
    · simp only [hi, if_true]
      exact onChannel_reply_case ch s (fun _ => 0) (storedOff s.cfg s.nv) (storedOn s.cfg s.nv) (fun _ => by decide)
    · simp only [hi]
      rcases Nat.lt_or_ge ch.toNat s.cfg.nCh with hc | hc
      · rw [onChannel_of_lt hc]
        exact .reply _ _ _ _ (by decide) (fun _ => ⟨rfl, rfl⟩) (by decide)
      · rw [onChannel_of_le hc]
        exact .reply _ _ _ _ (by decide) (fun _ => ⟨rfl, rfl⟩) (by decide)
  | stWrthr ch on off =>
    simp only [transaction, stWrthr]
    rcases Nat.lt_or_ge ch.toNat s.cfg.nCh with hc | hc
    · rw [onChannel_of_lt hc]
      split
      · next hv => exact .pair ch on off _ _ rfl hc ⟨_, _, hv, (zext16_sext16 _).symm, (zext16_sext16 _).symm⟩
      · exact .reply _ _ _ _ (by decide) (fun _ => ⟨rfl, rfl⟩) (by decide)
    · rw [onChannel_of_le hc]
      exact .reply _ _ _ _ (by decide) (fun _ => ⟨rfl, rfl⟩) (by decide)
  | adjOnInc ch => exact adjustThr_case rfl _ _ s
  | adjOnDec ch => exact adjustThr_case rfl _ _ s
  | adjOffInc ch => exact adjustThr_case rfl _ _ s
  | adjOffDec ch => exact adjustThr_case rfl _ _ s
  | adjOfsInc ch => exact adjustOfs_case rfl _ s
  | adjOfsDec ch => exact adjustOfs_case rfl _ s
  | getReading ch =>
    refine onChannel_reply_case ch s (fun n => Flag.valid.when (s.chan n).rdValid) (fun _ => 0)
      (fun n => (s.chan n).reading) (fun n => ?_)
    cases (s.chan n).rdValid <;> decide
  | getCoolon ch =>
    exact onChannel_reply_case ch s (fun _ => 0) (fun _ => 0) (fun n => (s.chan n).coolOn) (fun _ => by decide)
  | getCooloff ch =>
    exact onChannel_reply_case ch s (fun _ => 0) (fun _ => 0) (fun n => (s.chan n).coolOff) (fun _ => by decide)
  | getOffset ch =>
    exact onChannel_reply_case ch s (fun _ => 0) (fun _ => 0) (fun n => (s.chan n).offset) (fun _ => by decide)

/-- A valid pair is a pair of raw temperatures. -/
theorem validPair_iff {c : Cfg} {on off : Int} :
    validPair c on off = true ↔ c.tMin ≤ on ∧ on ≤ c.tMax ∧ c.tMin ≤ off ∧ off ≤ c.tMax ∧ off < on := by
  simp [validPair, and_assoc]

end Sys2Proof.Machine
end

