-- ==== Sys2Proof/Laws/Registers.lean ====
section
/-! SUPPORT. Reading one channel after each way in which the register file is rewritten. -/

namespace Sys2Proof.Machine

theorem chan_eq_getElem {s : State} {i : Nat} (h : i < s.channels.length) : s.chan i = s.channels[i] := by
  simp [State.chan, h]

theorem chan_eq_of_getElem? {s t : State} {i : Nat} (h : s.channels[i]? = t.channels[i]?) : s.chan i = t.chan i := by
  simp [State.chan, List.getD_eq_getElem?_getD, h]

theorem getElem?_of_lt {s : State} {i : Nat} (h : i < s.channels.length) : s.channels[i]? = some (s.chan i) := by
  simp [State.chan, h]

/-- A channel after one register record has been replaced. -/
theorem chan_of_set {s t : State} {i : Nat} {c : Channel} (h : t.channels = s.channels.set i c)
    (hi : i < s.channels.length) (j : Nat) : t.chan j = if j = i then c else s.chan j := by
  simp only [State.chan, h, List.getD_eq_getElem?_getD, List.getElem?_set]
  split
  · next e => subst e; simp
  · next e => rw [if_neg (fun e' => e e'.symm)]

/-- A record that is not replaced, without a bound on the place. -/
theorem chan_of_set_ne {s t : State} {i : Nat} {c : Channel} (h : t.channels = s.channels.set i c) {j : Nat} (hj : j ≠ i) :
    t.chan j = s.chan j := by
  simp only [State.chan, h, List.getD_eq_getElem?_getD]
  rw [List.getElem?_set_ne (fun e => hj e.symm)]

/-- A channel after every record has been rewritten by its place. -/
theorem chan_of_mapIdx {s t : State} {f : Nat → Channel → Channel} (h : t.channels = s.channels.mapIdx f) {j : Nat}
    (hj : j < s.channels.length) : t.chan j = f j (s.chan j) := by
  simp [State.chan, h, hj]

theorem chan_of_map {s t : State} {f : Channel → Channel} (h : t.channels = s.channels.map f) {j : Nat}
    (hj : j < s.channels.length) : t.chan j = f (s.chan j) := by
  simp [State.chan, h, hj]

theorem chan_of_range {t : State} {f : Nat → Channel} {n : Nat} (h : t.channels = (List.range n).map f) {j : Nat}
    (hj : j < n) : t.chan j = f j := by
  simp [State.chan, h, hj]

/-- A record beyond the register file reads as absent. -/
theorem chan_of_le {s : State} {j : Nat} (h : s.channels.length ≤ j) : s.chan j = Channel.absent := by
  simp [State.chan, h]

/-! ## The tick and the actuator lines -/

/-- A channel after a `TICK`. -/
theorem chan_tick {s : State} (sample : List Lane) {i : Nat} (hi : i < s.channels.length) :
    (tick sample s).chan i = stepChannel s.serial i (laneAt sample i) (s.chan i) :=
  chan_of_mapIdx (f := fun i c => stepChannel s.serial i (laneAt sample i) c) rfl hi

theorem laneAt_of_getElem? {sample : List Lane} {i : Nat} {lane : Lane} (h : sample[i]? = some lane) :
    laneAt sample i = lane := by
  simp [laneAt, List.getD_eq_getElem?_getD, h]

/-- A valid sample whose corrected reading is in range takes the transition (R182). -/
theorem stepValid_act {serial i : Nat} {r : Fx} {c : Channel} (h : inrange (corrected r c) = true) :
    (stepValid serial i r c).act = nextAct c.act (corrected r c) (sext16 c.coolOn) (sext16 c.coolOff) := if_pos h

/-- The `ACT` events of a register file, by index (R184). -/
theorem actEvents_eq (s : State) :
    actEvents s.channels = (List.range s.channels.length).map (fun i => ⟨i, (s.chan i).act⟩) := by
  apply List.ext_getElem
  · simp [actEvents]
  · intro i h1 h2
    simp only [actEvents, List.length_mapIdx] at h1
    simp [actEvents, chan_eq_getElem h1]

/-- An actuator line is at its channel's state while there is power (R33). -/
theorem line_eq {s : State} (hp : s.power = .powered) {i : Nat} (h : i < s.channels.length) :
    s.line i = some (s.chan i).act := by
  simp [State.line, hp, getElem?_of_lt h]

end Sys2Proof.Machine
end

