-- ==== Sys2Proof/Laws/Memory.lean ====
section
/-! SUPPORT. The laws of the NV memory: read after write, what a write leaves alone, the canonical form and the address
bound that every operation keeps, and that canonical memories with the same bytes are equal. -/

namespace Sys2Proof.Machine

/-- No cell of `m` has an address `a`, so `a` reads as unlisted. -/
theorem read_of_not_listed {m : Mem} {a : Nat} (h : ∀ c ∈ m, c.1 ≠ a) : m.read a = Mem.unlisted := by
  induction m with
  | nil => rfl
  | cons c m ih =>
    obtain ⟨b, u⟩ := c
    have hb : b ≠ a := h (b, u) (by simp)
    simp only [Mem.read, if_neg hb]
    exact ih fun d hd => h d (by simp [hd])

/-- A listed cell is what its address reads as, in a canonical memory. -/
theorem read_of_mem {m : Mem} {c : Host.Cell} (hm : m.Pairwise (fun c d => c.1 < d.1)) (hc : c ∈ m) :
    m.read c.1 = c.2 := by
  induction m with
  | nil => cases hc
  | cons d m ih =>
    obtain ⟨b, u⟩ := d
    rw [List.pairwise_cons] at hm
    rcases List.mem_cons.1 hc with rfl | hc
    · simp [Mem.read]
    · have := hm.1 c hc
      have hb : b ≠ c.1 := by simp only at this; omega
      simp only [Mem.read, if_neg hb]
      exact ih hm.2 hc

/-- A write leaves every other address alone. -/
theorem read_write_other (m : Mem) (v : Byte) {a b : Nat} (h : b ≠ a) : (m.write a v).read b = m.read b := by
  have h' : a ≠ b := fun e => h e.symm
  induction m with
  | nil => simp only [Mem.write]; split <;> simp [Mem.read, h']
  | cons c m ih =>
    obtain ⟨d, u⟩ := c
    simp only [Mem.write]
    split
    · split <;> simp [Mem.read, h']
    · split
      · subst_vars; split <;> simp [Mem.read, h']
      · simp [Mem.read, ih]

/-- A read after a write to the same address gives the value written. -/
theorem read_write_same {m : Mem} (hm : m.Pairwise (fun c d => c.1 < d.1)) (a : Nat) (v : Byte) :
    (m.write a v).read a = v := by
  induction m with
  | nil => simp only [Mem.write]; split <;> simp_all [Mem.read]
  | cons c m ih =>
    obtain ⟨d, u⟩ := c
    rw [List.pairwise_cons] at hm
    simp only [Mem.write]
    split
    · next hlt =>
      split
      · next hv =>
        rw [hv]
        apply read_of_not_listed
        intro c hc
        rcases List.mem_cons.1 hc with rfl | hc
        · simp only; omega
        · have := hm.1 c hc; simp only at this; omega
      · simp [Mem.read]
    · split
      · next heq =>
        split
        · next hv =>
          rw [hv]
          apply read_of_not_listed
          intro c hc
          have := hm.1 c hc; simp only at this; omega
        · simp [Mem.read]
      · next hne =>
        have hne' : d ≠ a := fun e => hne e.symm
        simp [Mem.read, hne', ih hm.2]

/-- What a write does to every address. -/
theorem read_write {m : Mem} (hm : Mem.Wf m) (a b : Nat) (v : Byte) :
    (m.write a v).read b = if b = a then v else m.read b := by
  split
  · next h => rw [h, read_write_same hm.1]
  · next h => exact read_write_other m v h

/-- A cell after a write is the cell written or was there before. -/
theorem mem_write {m : Mem} {a : Nat} {v : Byte} {c : Host.Cell} (h : c ∈ m.write a v) :
    (c = (a, v) ∧ v ≠ Mem.unlisted) ∨ c ∈ m := by
  induction m with
  | nil => simp only [Mem.write] at h; split at h <;> simp_all
  | cons d m ih =>
    obtain ⟨b, u⟩ := d
    simp only [Mem.write] at h
    split at h
    · split at h
      · exact .inr h
      · rcases List.mem_cons.1 h with h | h
        · exact .inl ⟨h, ‹_›⟩
        · exact .inr h
    · split at h
      · split at h
        · exact .inr (List.mem_cons_of_mem _ h)
        · rcases List.mem_cons.1 h with h | h
          · exact .inl ⟨h, ‹_›⟩
          · exact .inr (List.mem_cons_of_mem _ h)
      · rcases List.mem_cons.1 h with h | h
        · exact .inr (by simp [h])
        · rcases ih h with h | h
          · exact .inl h
          · exact .inr (List.mem_cons_of_mem _ h)

/-- A write keeps the canonical form. -/
theorem wf_write {m : Mem} (hm : Mem.Wf m) (a : Nat) (v : Byte) : Mem.Wf (m.write a v) := by
  refine ⟨?_, fun c hc => ?_⟩
  · have hp := hm.1
    clear hm
    induction m with
    | nil => simp only [Mem.write]; split <;> simp
    | cons d m ih =>
      obtain ⟨b, u⟩ := d
      have hq := hp
      rw [List.pairwise_cons] at hp
      simp only [Mem.write]
      split
      · next hlt =>
        split
        · exact hq
        · refine List.pairwise_cons.2 ⟨fun c hc => ?_, hq⟩
          rcases List.mem_cons.1 hc with rfl | hc
          · exact hlt
          · exact lt_trans hlt (hp.1 c hc)
      · split
        · next heq =>
          split
          · exact hp.2
          · refine List.pairwise_cons.2 ⟨fun c hc => ?_, hp.2⟩
            have := hp.1 c hc
            simp only at this ⊢; omega
        · refine List.pairwise_cons.2 ⟨fun c hc => ?_, ih hp.2⟩
          rcases mem_write hc with ⟨rfl, -⟩ | hc
          · simp only; omega
          · exact hp.1 c hc
  · rcases mem_write hc with ⟨rfl, hv⟩ | hc
    · exact hv
    · exact hm.2 c hc

/-- Canonical memories with the same bytes are equal. -/
theorem mem_ext {m n : Mem} (hm : Mem.Wf m) (hn : Mem.Wf n) (h : ∀ a, m.read a = n.read a) : m = n := by
  have key : ∀ {m n : Mem}, Mem.Wf m → Mem.Wf n → (∀ a, m.read a = n.read a) → ∀ c ∈ m, c ∈ n := by
    intro m n hm hn h c hc
    have hr := read_of_mem hm.1 hc
    by_contra hcn
    have hl : ∃ d ∈ n, d.1 = c.1 := by
      by_contra hno
      push Not at hno
      exact hm.2 c hc (by rw [← hr, h, read_of_not_listed hno])
    obtain ⟨d, hd, hdc⟩ := hl
    have : d = c := Prod.ext hdc (by rw [← read_of_mem hn.1 hd, hdc, ← h, hr])
    exact hcn (this ▸ hd)
  have hnd : ∀ {m : Mem}, Mem.Wf m → m.Nodup := fun hm =>
    hm.1.imp fun {c d} (hlt : c.1 < d.1) (e : c = d) => by rw [e] at hlt; exact lt_irrefl _ hlt
  have hperm : m.Perm n := (List.perm_ext_iff_of_nodup (hnd hm) (hnd hn)).2 fun c =>
    ⟨key hm hn h c, key hn hm (fun a => (h a).symm) c⟩
  exact hperm.eq_of_pairwise (fun c d _ _ (h1 : c.1 < d.1) (h2 : d.1 < c.1) => absurd h1 (by omega)) hm.1 hn.1

/-! ## Fields -/

/-- What a field write does to every address (R55). -/
theorem read_writeField {m : Mem} (hm : Mem.Wf m) (a b : Nat) (v : Fx) :
    (m.writeField a v).read b =
      if b = a then v.extractLsb' 0 8 else if b = a + 1 then v.extractLsb' 8 8 else m.read b := by
  rw [Mem.writeField, read_write (wf_write hm _ _), read_write hm]
  by_cases h1 : b = a
  · subst h1; simp
  · simp [h1]

theorem wf_writeField {m : Mem} (hm : Mem.Wf m) (a : Nat) (v : Fx) : Mem.Wf (m.writeField a v) :=
  wf_write (wf_write hm _ _) _ _

theorem extract_high_append_low (v : Fx) : (v.extractLsb' 8 8 ++ v.extractLsb' 0 8 : Fx) = v := by
  rw [BitVec.extractLsb'_append_extractLsb'_eq_extractLsb' (by rfl)]
  simp

/-- A field reads back as written. -/
theorem readField_writeField_same {m : Mem} (hm : Mem.Wf m) (a : Nat) (v : Fx) : (m.writeField a v).readField a = v := by
  simp [Mem.readField, read_writeField hm, extract_high_append_low]

/-- A field that shares no byte with the one written reads as before. -/
theorem readField_writeField_other {m : Mem} (hm : Mem.Wf m) {a b : Nat} (v : Fx) (h : b + 1 < a ∨ a + 1 < b) :
    (m.writeField a v).readField b = m.readField b := by
  simp only [Mem.readField, read_writeField hm]
  rw [if_neg (by omega), if_neg (by omega), if_neg (by omega), if_neg (by omega)]

/-! ## Sequences of writes -/

@[simp] theorem applyAll_nil (m : Mem) : m.applyAll [] = m := rfl

@[simp] theorem applyAll_cons (m : Mem) (w : NvWrite) (ws : List NvWrite) :
    m.applyAll (w :: ws) = (m.apply w).applyAll ws := rfl

theorem applyAll_append (m : Mem) (ws vs : List NvWrite) : m.applyAll (ws ++ vs) = (m.applyAll ws).applyAll vs := by
  simp [Mem.applyAll, List.foldl_append]

theorem wf_apply {m : Mem} (hm : Mem.Wf m) (w : NvWrite) : Mem.Wf (m.apply w) := by
  cases w with
  | byte a v => exact wf_write hm a v
  | field a v => exact wf_writeField hm a v

theorem wf_applyAll {m : Mem} (hm : Mem.Wf m) (ws : List NvWrite) : Mem.Wf (m.applyAll ws) := by
  induction ws generalizing m with
  | nil => exact hm
  | cons w ws ih => exact ih (wf_apply hm w)

/-- A write that does not touch an address leaves it alone. -/
theorem read_apply_other {w : NvWrite} {a : Nat} (m : Mem) (h : w.touches a = false) : (m.apply w).read a = m.read a := by
  cases w with
  | byte b v => exact read_write_other m v (by simpa [NvWrite.touches] using h)
  | field b v =>
    simp only [NvWrite.touches, Bool.or_eq_false_iff, decide_eq_false_iff_not] at h
    rw [Mem.apply, Mem.writeField, read_write_other _ _ h.2, read_write_other _ _ h.1]

/-- An address that no write of a sequence touches reads as before. -/
theorem read_applyAll_other {ws : List NvWrite} {a : Nat} (m : Mem) (h : ∀ w ∈ ws, w.touches a = false) :
    (m.applyAll ws).read a = m.read a := by
  induction ws generalizing m with
  | nil => rfl
  | cons w ws ih =>
    rw [applyAll_cons, ih _ fun v hv => h v (by simp [hv]), read_apply_other m (h w (by simp))]

/-- A field whose two bytes no write of a sequence touches reads as before. -/
theorem readField_applyAll_other {ws : List NvWrite} {a : Nat} (m : Mem)
    (h : ∀ w ∈ ws, w.touches a = false ∧ w.touches (a + 1) = false) : (m.applyAll ws).readField a = m.readField a := by
  rw [Mem.readField, Mem.readField, read_applyAll_other m fun w hw => (h w hw).1,
    read_applyAll_other m fun w hw => (h w hw).2]

/-- Writes below a bound keep every listed address below it. -/
theorem bounded_applyAll {m : Mem} {n : Nat} {ws : List NvWrite} (hm : ∀ c ∈ m, c.1 < n)
    (hw : ∀ w ∈ ws, ∀ a, w.touches a = true → a < n) : ∀ c ∈ m.applyAll ws, c.1 < n := by
  induction ws generalizing m with
  | nil => exact hm
  | cons w ws ih =>
    refine ih (fun c hc => ?_) fun v hv => hw v (by simp [hv])
    have hb := hw w (by simp)
    cases w with
    | byte a v =>
      rcases mem_write hc with ⟨rfl, -⟩ | hc
      · exact hb a (by simp [NvWrite.touches])
      · exact hm c hc
    | field a v =>
      rcases mem_write hc with ⟨rfl, -⟩ | hc
      · exact hb (a + 1) (by simp [NvWrite.touches])
      · rcases mem_write hc with ⟨rfl, -⟩ | hc
        · exact hb a (by simp [NvWrite.touches])
        · exact hm c hc

end Sys2Proof.Machine
end

