-- ==== Sys2Proof/Laws/Store.lean ====
section
/-! SUPPORT. The laws of the store layout (R56, R57, R9): blocks are disjoint, the marker lies in none, every address is in
the memory; and what the pair write, the initialisation and each prefix of it leave in the store. -/

namespace Sys2Proof.Machine

/-! ## Layout -/

theorem wf_markerOutside {c : Cfg} (h : c.Wf) :
    c.markerAddr < c.blockBase ∨ c.blockBase + c.nCh * c.blockSize ≤ c.markerAddr :=
  (of_decide_eq_true h).2.2.2.2.2.2.2.2.2.2.2.2.1

theorem wf_blockSize {c : Cfg} (h : c.Wf) : 4 ≤ c.blockSize := (of_decide_eq_true h).2.2.2.2.2.1

theorem wf_channels {c : Cfg} (h : c.Wf) : 1 ≤ c.nCh ∧ c.nCh ≤ 256 := (of_decide_eq_true h).2.1

theorem wf_markerAddr {c : Cfg} (h : c.Wf) : c.markerAddr < c.nvSize := (of_decide_eq_true h).2.2.2.1

theorem wf_fits {c : Cfg} (h : c.Wf) : c.blockBase + c.nCh * c.blockSize ≤ c.nvSize :=
  (of_decide_eq_true h).2.2.2.2.2.2.2.2.2.2.2.2.2

theorem wf_thresholdBounds {c : Cfg} (h : c.Wf) : -32768 ≤ c.tMin ∧ c.tMin < c.tMax ∧ c.tMax ≤ 32767 :=
  (of_decide_eq_true h).2.2.2.2.2.2.1

theorem wf_offsetBounds {c : Cfg} (h : c.Wf) : -32768 ≤ c.ofsMin ∧ c.ofsMin ≤ c.ofsMax ∧ c.ofsMax ≤ 32767 :=
  (of_decide_eq_true h).2.2.2.2.2.2.2.2.1

theorem wf_defaults {c : Cfg} (h : c.Wf) :
    c.tMin ≤ c.defaultOff ∧ c.defaultOff < c.defaultOn ∧ c.defaultOn ≤ c.tMax :=
  (of_decide_eq_true h).2.2.2.2.2.2.2.2.2.2.1

theorem wf_offsetInit {c : Cfg} (h : c.Wf) :
    c.offsetInit.length = c.nCh ∧ ∀ x ∈ c.offsetInit, c.ofsMin ≤ x ∧ x ≤ c.ofsMax :=
  (of_decide_eq_true h).2.2.2.2.2.2.2.2.2.2.2.1

/-- Block `i` ends where block `i + 1` may begin, at the latest. -/
theorem blockAddr_step (c : Cfg) {i j : Nat} (h : i < j) : blockAddr c i + c.blockSize ≤ blockAddr c j := by
  have : (i + 1) * c.blockSize ≤ j * c.blockSize := Nat.mul_le_mul_right _ h
  have e : (i + 1) * c.blockSize = i * c.blockSize + c.blockSize := by ring
  simp only [blockAddr]; omega

/-- Two blocks share no byte of their fields. -/
theorem blocks_disjoint {c : Cfg} (hc : c.Wf) {i j : Nat} (h : i ≠ j) :
    blockAddr c i + 4 ≤ blockAddr c j ∨ blockAddr c j + 4 ≤ blockAddr c i := by
  have := wf_blockSize hc
  rcases Nat.lt_or_gt_of_ne h with h | h
  · have := blockAddr_step c h; omega
  · have := blockAddr_step c h; omega

theorem block_end {c : Cfg} (hc : c.Wf) {i : Nat} (h : i < c.nCh) :
    blockAddr c i + 4 ≤ c.blockBase + c.nCh * c.blockSize := by
  have := wf_blockSize hc
  have : (i + 1) * c.blockSize ≤ c.nCh * c.blockSize := Nat.mul_le_mul_right _ h
  have e : (i + 1) * c.blockSize = i * c.blockSize + c.blockSize := by ring
  simp only [blockAddr]; omega

/-- The marker byte lies in no block (R9). -/
theorem marker_outside {c : Cfg} (hc : c.Wf) {i : Nat} (h : i < c.nCh) :
    c.markerAddr < blockAddr c i ∨ blockAddr c i + 4 ≤ c.markerAddr := by
  have h1 := wf_markerOutside hc
  have h2 := block_end hc h
  have h3 : c.blockBase ≤ blockAddr c i := by simp [blockAddr]
  omega

/-- Every byte of a block is in the memory (R57). -/
theorem block_bounded {c : Cfg} (hc : c.Wf) {i : Nat} (h : i < c.nCh) : blockAddr c i + 4 ≤ c.nvSize :=
  le_trans (block_end hc h) (wf_fits hc)

/-! ## The pair write -/

@[simp] theorem pairWrites_length (c : Cfg) (i : Nat) (on off : Fx) : (pairWrites c i on off).length = 2 := rfl

/-- The bytes that a pair write touches are those of its block's fields. -/
theorem pairWrites_touches {c : Cfg} {i a : Nat} {on off : Fx} {w : NvWrite} (h : w ∈ pairWrites c i on off)
    (ht : w.touches a = true) : inBlock c i a := by
  simp only [pairWrites, List.mem_cons, List.not_mem_nil, or_false] at h
  rcases h with rfl | rfl <;> simp [NvWrite.touches] at ht <;> simp only [inBlock] <;> omega

theorem pairWrites_not_touches {c : Cfg} {i a : Nat} {on off : Fx} (h : ¬ inBlock c i a) :
    ∀ w ∈ pairWrites c i on off, w.touches a = false := fun _ hw =>
  Bool.eq_false_iff.2 fun ht => h (pairWrites_touches hw ht)

/-- A pair write, and any part of it, leaves every byte outside its block alone. -/
theorem read_pairWrites_other {c : Cfg} {i a : Nat} (on off : Fx) (k : Nat) (m : Mem) (h : ¬ inBlock c i a) :
    (m.applyAll ((pairWrites c i on off).take k)).read a = m.read a :=
  read_applyAll_other m fun w hw => pairWrites_not_touches h w (List.mem_of_mem_take hw)

theorem stored_pairWrites_same (c : Cfg) {m : Mem} (hm : Mem.Wf m) (i : Nat) (on off : Fx) :
    storedOn c (m.applyAll (pairWrites c i on off)) i = on ∧ storedOff c (m.applyAll (pairWrites c i on off)) i = off := by
  simp only [pairWrites, applyAll_cons, applyAll_nil, Mem.apply, storedOn, storedOff]
  refine ⟨?_, readField_writeField_same (wf_writeField hm _ _) _ _⟩
  rw [readField_writeField_other (wf_writeField hm _ _) _ (by omega), readField_writeField_same hm]

/-- After the first of the two writes: the new `coolOn`, the old `coolOff` (R60). -/
theorem stored_pairWrites_torn (c : Cfg) {m : Mem} (hm : Mem.Wf m) (i : Nat) (on off : Fx) :
    storedOn c (m.applyAll ((pairWrites c i on off).take 1)) i = on ∧
    storedOff c (m.applyAll ((pairWrites c i on off).take 1)) i = storedOff c m i := by
  simp only [pairWrites, List.take_succ_cons, List.take_zero, applyAll_cons, applyAll_nil, Mem.apply, storedOn, storedOff]
  exact ⟨readField_writeField_same hm _ _, readField_writeField_other hm _ (by omega)⟩

theorem stored_pairWrites_other {c : Cfg} (hc : c.Wf) (m : Mem) {i j : Nat} (on off : Fx) (k : Nat) (h : j ≠ i) :
    storedOn c (m.applyAll ((pairWrites c i on off).take k)) j = storedOn c m j ∧
    storedOff c (m.applyAll ((pairWrites c i on off).take k)) j = storedOff c m j := by
  have hd := blocks_disjoint hc h
  constructor <;>
  · refine readField_applyAll_other m fun w hw => ?_
    have hw := List.mem_of_mem_take hw
    constructor <;>
    · refine pairWrites_not_touches ?_ w hw
      simp only [inBlock]; omega

theorem isInit_pairWrites {c : Cfg} (hc : c.Wf) (m : Mem) {i : Nat} (hi : i < c.nCh) (on off : Fx) (k : Nat) :
    isInit c (m.applyAll ((pairWrites c i on off).take k)) = isInit c m := by
  have := marker_outside hc hi
  rw [isInit, isInit, read_pairWrites_other]
  simp only [inBlock]; omega

/-! ## The initialisation -/

/-- The pair writes of the first `n` blocks, in ascending order: `initWrites` is these for `n = N`, then the marker. -/
def blockWrites (c : Cfg) (n : Nat) : List NvWrite :=
  (List.range n).flatMap fun i => pairWrites c i (zext16 c.defaultOn) (zext16 c.defaultOff)

theorem initWrites_eq (c : Cfg) : initWrites c = blockWrites c c.nCh ++ [.byte c.markerAddr c.markerValue] := rfl

theorem blockWrites_succ (c : Cfg) (n : Nat) :
    blockWrites c (n + 1) = blockWrites c n ++ pairWrites c n (zext16 c.defaultOn) (zext16 c.defaultOff) := by
  simp [blockWrites, List.range_succ]

@[simp] theorem blockWrites_length (c : Cfg) (n : Nat) : (blockWrites c n).length = 2 * n := by
  induction n with
  | zero => rfl
  | succ n ih => simp [blockWrites_succ, ih]; omega

/-- `W = 2N + 1` (R61). -/
@[simp] theorem initWrites_length (c : Cfg) : (initWrites c).length = 2 * c.nCh + 1 := by simp [initWrites_eq]

theorem blockWrites_touches {c : Cfg} {n a : Nat} {w : NvWrite} (h : w ∈ blockWrites c n) (ht : w.touches a = true) :
    ∃ i < n, inBlock c i a := by
  simp only [blockWrites, List.mem_flatMap, List.mem_range] at h
  obtain ⟨i, hi, hw⟩ := h
  exact ⟨i, hi, pairWrites_touches hw ht⟩

/-- Up to `2N` writes of the initialisation leave the marker alone: it is written last (R133, R224). -/
theorem take_initWrites {c : Cfg} {k : Nat} (h : k ≤ 2 * c.nCh) : (initWrites c).take k = (blockWrites c c.nCh).take k := by
  rw [initWrites_eq, List.take_append_of_le_length (by simpa using h)]

theorem isInit_blockWrites {c : Cfg} (hc : c.Wf) (m : Mem) (k : Nat) :
    isInit c (m.applyAll ((blockWrites c c.nCh).take k)) = isInit c m := by
  rw [isInit, isInit, read_applyAll_other]
  intro w hw
  refine Bool.eq_false_iff.2 fun ht => ?_
  obtain ⟨i, hi, hb⟩ := blockWrites_touches (List.mem_of_mem_take hw) ht
  have := marker_outside hc hi
  simp only [inBlock] at hb; omega

/-- What the first `k` block writes leave in block `i`: each field new if its write is among them, else old. -/
theorem stored_blockWrites {c : Cfg} (hc : c.Wf) {m : Mem} (hm : Mem.Wf m) (n k i : Nat) :
    storedOn c (m.applyAll ((blockWrites c n).take k)) i =
      (if i < n ∧ 2 * i < k then zext16 c.defaultOn else storedOn c m i) ∧
    storedOff c (m.applyAll ((blockWrites c n).take k)) i =
      (if i < n ∧ 2 * i + 1 < k then zext16 c.defaultOff else storedOff c m i) := by
  induction n with
  | zero => simp [blockWrites]
  | succ n ih =>
    have hw := wf_applyAll hm ((blockWrites c n).take k)
    rw [blockWrites_succ, List.take_append, applyAll_append, blockWrites_length]
    by_cases hin : i = n
    · subst hin
      simp only [lt_irrefl, false_and, if_false] at ih
      rcases Nat.lt_or_ge (2 * i) k with h1 | h1
      · rcases Nat.lt_or_ge (2 * i + 1) k with h2 | h2
        · rw [List.take_of_length_le (l := pairWrites c i _ _) (by simp; omega)]
          obtain ⟨a, b⟩ := stored_pairWrites_same c hw i (zext16 c.defaultOn) (zext16 c.defaultOff)
          rw [a, b]; simp [h1, h2]
        · have e : k - 2 * i = 1 := by omega
          rw [e]
          obtain ⟨a, b⟩ := stored_pairWrites_torn c hw i (zext16 c.defaultOn) (zext16 c.defaultOff)
          rw [a, b, ih.2]; simp [h1]; omega
      · have e : k - 2 * i = 0 := by omega
        rw [e, List.take_zero, applyAll_nil, ih.1, ih.2]
        simp; omega
    · obtain ⟨a, b⟩ := stored_pairWrites_other hc (m.applyAll ((blockWrites c n).take k)) (zext16 c.defaultOn)
        (zext16 c.defaultOff) (k - 2 * n) hin
      rw [a, b, ih.1, ih.2]
      constructor <;> congr 1 <;> simp <;> omega

/-- The bytes that the initialisation touches: the fields of the blocks, and the marker. -/
theorem initWrites_touches {c : Cfg} {a : Nat} {w : NvWrite} (h : w ∈ initWrites c) (ht : w.touches a = true) :
    (∃ i < c.nCh, inBlock c i a) ∨ a = c.markerAddr := by
  rw [initWrites_eq, List.mem_append] at h
  rcases h with h | h
  · exact .inl (blockWrites_touches h ht)
  · simp only [List.mem_singleton] at h
    subst h
    exact .inr (by simpa [NvWrite.touches] using ht)

/-- The whole initialisation leaves the marker valid and every block at the default pair (R133, R222). -/
theorem initWrites_spec {c : Cfg} (hc : c.Wf) {m : Mem} (hm : Mem.Wf m) :
    isInit c (m.applyAll (initWrites c)) = true ∧ ∀ i < c.nCh,
      storedOn c (m.applyAll (initWrites c)) i = zext16 c.defaultOn ∧
      storedOff c (m.applyAll (initWrites c)) i = zext16 c.defaultOff := by
  have hw := wf_applyAll hm (blockWrites c c.nCh)
  rw [initWrites_eq, applyAll_append]
  simp only [applyAll_cons, applyAll_nil, Mem.apply]
  refine ⟨by simp [isInit, read_write hw], fun i hi => ?_⟩
  have hmk := marker_outside hc hi
  have hs := stored_blockWrites hc hm c.nCh (2 * c.nCh) i
  rw [List.take_of_length_le (by simp), if_pos (by omega), if_pos (by omega)] at hs
  rw [← hs.1, ← hs.2]
  simp only [storedOn, storedOff, Mem.readField, read_write hw]
  constructor
  · rw [if_neg (by omega), if_neg (by omega)]
  · rw [if_neg (by omega), if_neg (by omega)]

/-- Every byte that an operation of HCE writes is in the memory (R57). -/
theorem initWrites_bounded {c : Cfg} (hc : c.Wf) : ∀ w ∈ initWrites c, ∀ a, w.touches a = true → a < c.nvSize := by
  intro w hw a ht
  rcases initWrites_touches hw ht with ⟨i, hi, hb⟩ | rfl
  · have := block_bounded hc hi
    simp only [inBlock] at hb; omega
  · exact wf_markerAddr hc

theorem pairWrites_bounded {c : Cfg} (hc : c.Wf) {i : Nat} (hi : i < c.nCh) (on off : Fx) :
    ∀ w ∈ pairWrites c i on off, ∀ a, w.touches a = true → a < c.nvSize := by
  intro w hw a ht
  have hb := pairWrites_touches hw ht
  have := block_bounded hc hi
  simp only [inBlock] at hb; omega

end Sys2Proof.Machine
end

