-- ==== Sys2Proof/Laws/Boot.lean ====
section
/-! SUPPORT. What reset and boot do, said once: the registers after each, and the store after boot; and the bounds of what every
operation writes. -/

namespace Sys2Proof.Machine

/-! ## Constants as raw values -/

/-- The default pair is a pair of raw temperatures (R132). -/
theorem toInt_defaults {c : Cfg} (hc : c.Wf) :
    (zext16 c.defaultOn).toInt = c.defaultOn ∧ (zext16 c.defaultOff).toInt = c.defaultOff := by
  have h1 := wf_thresholdBounds hc
  have h2 := wf_defaults hc
  exact ⟨sext16_zext16 (by omega), sext16_zext16 (by omega)⟩

/-- The initial offset of every channel is a raw temperature (R9). -/
theorem toInt_offsetInit {c : Cfg} (hc : c.Wf) {i : Nat} (hi : i < c.nCh) :
    some (zext16 (c.offsetInit.getD i 0)).toInt = c.offsetInit[i]? := by
  obtain ⟨h1, h2⟩ := wf_offsetInit hc
  have hb := wf_offsetBounds hc
  have hlt : i < c.offsetInit.length := by omega
  have hx := h2 _ (List.getElem_mem hlt)
  rw [List.getD_eq_getElem?_getD, List.getElem?_eq_getElem hlt]
  simp only [Option.getD_some]
  exact congrArg some (sext16_zext16 (by omega))

/-! ## Registers -/

theorem chan_resetRegisters {s : State} {i : Nat} (hi : i < s.cfg.nCh) :
    (resetRegisters s).chan i = resetChannel s.cfg s.serial i := chan_of_range rfl hi

@[simp] theorem length_boot (s : State) : (boot s).channels.length = s.channels.length := by
  simp only [boot_channels]; split <;> simp [loadPairs, defaultPairs]

theorem chan_boot {s : State} {i : Nat} (hi : i < s.channels.length) :
    (boot s).chan i =
      if isInit s.cfg s.nv then (s.chan i).withPair (storedOn s.cfg s.nv i) (storedOff s.cfg s.nv i)
      else (s.chan i).withPair (zext16 s.cfg.defaultOn) (zext16 s.cfg.defaultOff) := by
  by_cases h : isInit s.cfg s.nv = true
  · rw [if_pos h]
    exact chan_of_mapIdx (s := s) (f := fun i ch => ch.withPair (storedOn s.cfg s.nv i) (storedOff s.cfg s.nv i))
      (by simp only [boot_channels]; rw [if_pos h]; rfl) hi
  · rw [if_neg h]
    exact chan_of_map (s := s) (f := (·.withPair (zext16 s.cfg.defaultOn) (zext16 s.cfg.defaultOff)))
      (by simp only [boot_channels]; rw [if_neg h]; rfl) hi

/-! ## The store after boot -/

/-- On an initialised store boot writes nothing (R222). -/
theorem boot_nv_of_isInit {s : State} (h : isInit s.cfg s.nv = true) : (boot s).nv = s.nv := by simp [bootWrites, h]

/-- On a store that is not initialised boot makes the writes of `initializeDefaults` (R222). -/
theorem boot_nv_of_not_isInit {s : State} (h : isInit s.cfg s.nv = false) :
    (boot s).nv = s.nv.applyAll (initWrites s.cfg) := by simp [bootWrites, h]

/-! ## What operations write -/

theorem length_transaction (i : Instr) (s : State) : (transaction i s).channels.length = s.channels.length := by
  have h := transaction_case i s
  generalize transaction i s = T at h
  cases h <;> simp [defaultPairs, State.commitPair]

theorem transaction_bounded {s : State} (hc : s.cfg.Wf) (i : Instr) :
    ∀ w ∈ (transaction i s).writes, ∀ a, w.touches a = true → a < s.cfg.nvSize := by
  have h := transaction_case i s
  generalize transaction i s = T at h
  cases h with
  | reply | overflow | offset => intro w hw; cases hw
  | initdef => exact initWrites_bounded hc
  | pair ch on off v1 v0 h hch hv => exact pairWrites_bounded hc hch _ _

theorem bootWrites_bounded {s : State} (hc : s.cfg.Wf) :
    ∀ w ∈ bootWrites s, ∀ a, w.touches a = true → a < s.cfg.nvSize := by
  rw [bootWrites]; split
  · intro w hw; cases hw
  · exact initWrites_bounded hc

end Sys2Proof.Machine
end

