-- ==== Sys2Proof/Laws/Encoding.lean ====
section
/-! SUPPORT. The laws of the command word: each field of a packed word is the field packed, a word is the pack of its fields,
and a row selects exactly the words with its opcode and zeros in the fields that its format reserves (R82, R84). -/

namespace Sys2Proof

section pack
variable (op ch : Byte) (c b a : Fx)

@[simp] theorem aField_packWord : aField (packWord op ch c b a) = a := by
  unfold aField packWord
  rw [BitVec.extractLsb'_append_eq_of_add_le (by decide)]
  simp

@[simp] theorem bField_packWord : bField (packWord op ch c b a) = b := by
  unfold bField packWord
  rw [BitVec.extractLsb'_append_eq_of_le (by decide), BitVec.extractLsb'_append_eq_of_add_le (by decide)]
  simp

@[simp] theorem cField_packWord : cField (packWord op ch c b a) = c := by
  unfold cField packWord
  rw [BitVec.extractLsb'_append_eq_of_le (by decide), BitVec.extractLsb'_append_eq_of_le (by decide),
    BitVec.extractLsb'_append_eq_of_add_le (by decide)]
  simp

@[simp] theorem chField_packWord : chField (packWord op ch c b a) = ch := by
  unfold chField packWord
  rw [BitVec.extractLsb'_append_eq_of_le (by decide), BitVec.extractLsb'_append_eq_of_le (by decide),
    BitVec.extractLsb'_append_eq_of_le (by decide), BitVec.extractLsb'_append_eq_of_add_le (by decide)]
  simp

@[simp] theorem opField_packWord : opField (packWord op ch c b a) = op := by
  unfold opField packWord
  rw [BitVec.extractLsb'_append_eq_of_le (by decide), BitVec.extractLsb'_append_eq_of_le (by decide),
    BitVec.extractLsb'_append_eq_of_le (by decide), BitVec.extractLsb'_append_eq_of_le (by decide)]
  simp

end pack

/-- `w = {op, ch, C, B, A}` (R81). -/
theorem packWord_fields (w : Word64) : packWord (opField w) (chField w) (cField w) (bField w) (aField w) = w := by
  unfold packWord opField chField cField bField aField
  rw [BitVec.extractLsb'_append_extractLsb'_eq_extractLsb' (by rfl),
    BitVec.extractLsb'_append_extractLsb'_eq_extractLsb' (by rfl),
    BitVec.extractLsb'_append_extractLsb'_eq_extractLsb' (by rfl),
    BitVec.extractLsb'_append_extractLsb'_eq_extractLsb' (by rfl)]
  simp

/-- Two words are equal when their five fields are. -/
theorem word_ext {w v : Word64} (ho : opField w = opField v) (hh : chField w = chField v) (hc : cField w = cField v)
    (hb : bField w = bField v) (ha : aField w = aField v) : w = v := by
  rw [← packWord_fields w, ← packWord_fields v, ho, hh, hc, hb, ha]

section mask
variable (w v : Word64)
theorem opField_and : opField (w &&& v) = opField w &&& opField v := by simp [opField, BitVec.extractLsb'_and]
theorem chField_and : chField (w &&& v) = chField w &&& chField v := by simp [chField, BitVec.extractLsb'_and]
theorem cField_and : cField (w &&& v) = cField w &&& cField v := by simp [cField, BitVec.extractLsb'_and]
theorem bField_and : bField (w &&& v) = bField w &&& bField v := by simp [bField, BitVec.extractLsb'_and]
theorem aField_and : aField (w &&& v) = aField w &&& aField v := by simp [aField, BitVec.extractLsb'_and]
end mask

/-- The masks of R84, field by field. -/
theorem mask_fields (f : Format) :
    opField f.mask = BitVec.allOnes 8 ∧
    chField f.mask = (match f with | .z => BitVec.allOnes 8 | .ch => 0 | .ab => BitVec.allOnes 8 | .abc => BitVec.allOnes 8 | .chab => 0) ∧
    cField f.mask = (match f with | .z => BitVec.allOnes 16 | .ch => BitVec.allOnes 16 | .ab => BitVec.allOnes 16 | .abc => 0 | .chab => BitVec.allOnes 16) ∧
    bField f.mask = (match f with | .z => BitVec.allOnes 16 | .ch => BitVec.allOnes 16 | .ab => 0 | .abc => 0 | .chab => 0) ∧
    aField f.mask = (match f with | .z => BitVec.allOnes 16 | .ch => BitVec.allOnes 16 | .ab => 0 | .abc => 0 | .chab => 0) := by
  cases f <;> decide

/-- A row selects the words with its opcode and zeros in the fields its format reserves: the mask test of R84, in fields. -/
theorem selects_iff (r : OpRow) (w : Word64) :
    r.selects w = true ↔ opField w = r.op ∧
      (match r.format with
        | .z => chField w = 0 ∧ cField w = 0 ∧ bField w = 0 ∧ aField w = 0
        | .ch => cField w = 0 ∧ bField w = 0 ∧ aField w = 0
        | .ab => chField w = 0 ∧ cField w = 0
        | .abc => chField w = 0
        | .chab => cField w = 0) := by
  obtain ⟨mo, mh, mc, mb, ma⟩ := mask_fields r.format
  have key : r.selects w = true ↔
      opField w &&& opField r.format.mask = r.op ∧ chField w &&& chField r.format.mask = 0 ∧
      cField w &&& cField r.format.mask = 0 ∧ bField w &&& bField r.format.mask = 0 ∧
      aField w &&& aField r.format.mask = 0 := by
    simp only [OpRow.selects, OpRow.matchWord, beq_iff_eq]
    constructor
    · intro h
      refine ⟨?_, ?_, ?_, ?_, ?_⟩
      · rw [← opField_and, h, opField_packWord]
      · rw [← chField_and, h, chField_packWord]
      · rw [← cField_and, h, cField_packWord]
      · rw [← bField_and, h, bField_packWord]
      · rw [← aField_and, h, aField_packWord]
    · rintro ⟨h1, h2, h3, h4, h5⟩
      apply word_ext
      · rw [opField_and, h1, opField_packWord]
      · rw [chField_and, h2, chField_packWord]
      · rw [cField_and, h3, cField_packWord]
      · rw [bField_and, h4, bField_packWord]
      · rw [aField_and, h5, aField_packWord]
  have e8 : ∀ x : Byte, x &&& 255#8 = x := fun _ => BitVec.and_allOnes
  have e16 : ∀ x : Fx, x &&& 65535#16 = x := fun _ => BitVec.and_allOnes
  rw [key, mo, mh, mc, mb, ma]
  cases r.format <;> simp [e8, e16]

/-- A decoded command is built by a row of the table that the word selects. -/
theorem row_of_decode {w : Word64} {i : Instr} (h : decode w = some i) :
    ∃ r ∈ opTable, r.selects w = true ∧ r.build w = i := by
  unfold decode at h
  rw [Option.map_eq_some_iff] at h
  obtain ⟨r, hr, h⟩ := h
  exact ⟨r, List.mem_of_find?_eq_some hr, by simpa using List.find?_some hr, h⟩

/-- A word decodes exactly when it selects a row. -/
theorem decode_ne_none_iff (w : Word64) : decode w ≠ none ↔ ∃ r ∈ opTable, r.selects w = true := by
  unfold decode
  simp [List.find?_eq_none]

end Sys2Proof
end

