-- ==== Sys2Proof/Laws/PerInstr.lean ====
section
/-! SUPPORT. For every command: the row of the opcode table that its encoding selects, and what stands in its channel field. -/

namespace Sys2Proof.Laws.EncodedRow

/-- The encoding of `i` has the opcode of a row of the table, is selected by that row's mask, and holds the channel of `i`, or 0, in
its channel field (R81, R84). -/
def Statement (i : Instr) : Prop :=
  ∃ r ∈ opTable, r.selects (encode i) = true ∧ opField (encode i) = r.op ∧ chField (encode i) = i.channel?.getD 0

/-- The row at a place of the table, for the lemmas below. -/
theorem of_row (n : Nat) (i : Instr) (h : n < opTable.length)
    (hs : opTable[n].selects (encode i) = true) (hc : chField (encode i) = i.channel?.getD 0) : Statement i :=
  ⟨opTable[n], List.getElem_mem h, hs, ((selects_iff _ _).1 hs).1, hc⟩

theorem fadd (a b : Fx) : Statement (.fadd a b) :=
  of_row 0 _ (by decide) ((selects_iff _ _).2 (by
    simp [opTable, fixedPointRows, storeRows, adjustRows, accessorRows, encode])) (by simp [encode, Instr.channel?])

theorem fcmp (a b : Fx) : Statement (.fcmp a b) :=
  of_row 1 _ (by decide) ((selects_iff _ _).2 (by
    simp [opTable, fixedPointRows, storeRows, adjustRows, accessorRows, encode])) (by simp [encode, Instr.channel?])

theorem fclamp (v lo hi : Fx) : Statement (.fclamp v lo hi) :=
  of_row 2 _ (by decide) ((selects_iff _ _).2 (by
    simp [opTable, fixedPointRows, storeRows, adjustRows, accessorRows, encode])) (by simp [encode, Instr.channel?])

theorem stIsinit : Statement .stIsinit :=
  of_row 3 _ (by decide) ((selects_iff _ _).2 (by
    simp [opTable, fixedPointRows, storeRows, adjustRows, accessorRows, encode])) (by simp [encode, Instr.channel?])

theorem stInitdef : Statement .stInitdef :=
  of_row 4 _ (by decide) ((selects_iff _ _).2 (by
    simp [opTable, fixedPointRows, storeRows, adjustRows, accessorRows, encode])) (by simp [encode, Instr.channel?])

theorem stRdthr (ch : Byte) : Statement (.stRdthr ch) :=
  of_row 5 _ (by decide) ((selects_iff _ _).2 (by
    simp [opTable, fixedPointRows, storeRows, adjustRows, accessorRows, encode])) (by simp [encode, Instr.channel?])

theorem stWrthr (ch : Byte) (on off : Fx) : Statement (.stWrthr ch on off) :=
  of_row 6 _ (by decide) ((selects_iff _ _).2 (by
    simp [opTable, fixedPointRows, storeRows, adjustRows, accessorRows, encode])) (by simp [encode, Instr.channel?])

theorem adjOnInc (ch : Byte) : Statement (.adjOnInc ch) :=
  of_row 7 _ (by decide) ((selects_iff _ _).2 (by
    simp [opTable, fixedPointRows, storeRows, adjustRows, accessorRows, encode])) (by simp [encode, Instr.channel?])

theorem adjOnDec (ch : Byte) : Statement (.adjOnDec ch) :=
  of_row 8 _ (by decide) ((selects_iff _ _).2 (by
    simp [opTable, fixedPointRows, storeRows, adjustRows, accessorRows, encode])) (by simp [encode, Instr.channel?])

theorem adjOffInc (ch : Byte) : Statement (.adjOffInc ch) :=
  of_row 9 _ (by decide) ((selects_iff _ _).2 (by
    simp [opTable, fixedPointRows, storeRows, adjustRows, accessorRows, encode])) (by simp [encode, Instr.channel?])

theorem adjOffDec (ch : Byte) : Statement (.adjOffDec ch) :=
  of_row 10 _ (by decide) ((selects_iff _ _).2 (by
    simp [opTable, fixedPointRows, storeRows, adjustRows, accessorRows, encode])) (by simp [encode, Instr.channel?])

theorem adjOfsInc (ch : Byte) : Statement (.adjOfsInc ch) :=
  of_row 11 _ (by decide) ((selects_iff _ _).2 (by
    simp [opTable, fixedPointRows, storeRows, adjustRows, accessorRows, encode])) (by simp [encode, Instr.channel?])

theorem adjOfsDec (ch : Byte) : Statement (.adjOfsDec ch) :=
  of_row 12 _ (by decide) ((selects_iff _ _).2 (by
    simp [opTable, fixedPointRows, storeRows, adjustRows, accessorRows, encode])) (by simp [encode, Instr.channel?])

theorem getReading (ch : Byte) : Statement (.getReading ch) :=
  of_row 13 _ (by decide) ((selects_iff _ _).2 (by
    simp [opTable, fixedPointRows, storeRows, adjustRows, accessorRows, encode])) (by simp [encode, Instr.channel?])

theorem getCoolon (ch : Byte) : Statement (.getCoolon ch) :=
  of_row 14 _ (by decide) ((selects_iff _ _).2 (by
    simp [opTable, fixedPointRows, storeRows, adjustRows, accessorRows, encode])) (by simp [encode, Instr.channel?])

theorem getCooloff (ch : Byte) : Statement (.getCooloff ch) :=
  of_row 15 _ (by decide) ((selects_iff _ _).2 (by
    simp [opTable, fixedPointRows, storeRows, adjustRows, accessorRows, encode])) (by simp [encode, Instr.channel?])

theorem getOffset (ch : Byte) : Statement (.getOffset ch) :=
  of_row 16 _ (by decide) ((selects_iff _ _).2 (by
    simp [opTable, fixedPointRows, storeRows, adjustRows, accessorRows, encode])) (by simp [encode, Instr.channel?])

end Sys2Proof.Laws.EncodedRow
end

