-- ==== Sys2Proof/Laws/Script.lean ====
section
/-! SUPPORT. What loading a script can do, said once: the machine it answers has no power, is in shape, and is offered a `RESET`
first. -/

namespace Sys2Proof.Machine

theorem wf_writeBytes {m : Mem} (hm : Mem.Wf m) (a : Nat) (bs : List Byte) : Mem.Wf (m.writeBytes a bs) := by
  induction bs generalizing m a with
  | nil => exact hm
  | cons b bs ih => exact ih (wf_write hm a b) (a + 1)

theorem bounded_writeBytes {m : Mem} {n a : Nat} {bs : List Byte} (hm : ∀ c ∈ m, c.1 < n) (h : a + bs.length ≤ n) :
    ∀ c ∈ m.writeBytes a bs, c.1 < n := by
  induction bs generalizing m a with
  | nil => exact hm
  | cons b bs ih =>
    simp only [List.length_cons] at h
    refine ih (fun c hc => ?_) (by omega)
    rcases mem_write hc with ⟨rfl, _⟩ | hc
    · simp only; omega
    · exact hm c hc

theorem splitScript_spec {n : Nat} {m : Mem} {lines : List ScriptLine} {p : Mem × List ScriptLine} (hm : Mem.Wf m)
    (hb : ∀ c ∈ m, c.1 < n) (h : splitScript n m lines = some p) :
    Mem.Wf p.1 ∧ (∀ c ∈ p.1, c.1 < n) ∧ ∃ rest, p.2 = .reset :: rest := by
  induction lines generalizing m with
  | nil => cases h
  | cons line rest ih =>
    cases line with
    | nv a bs =>
      simp only [splitScript] at h
      split at h
      · next hle => exact ih (wf_writeBytes hm a bs) (bounded_writeBytes hb hle) h
      · cases h
    | reset =>
      simp only [splitScript] at h
      split at h
      · cases h
      · cases h; exact ⟨hm, hb, rest, rfl⟩
    | tick | powerLoss | command => cases h

/-- A script's events begin with its first line, `RESET` (R91). -/
theorem scriptEvents_reset (rest : List ScriptLine) : ∃ es, scriptEvents (.reset :: rest) = .reset :: es := by
  unfold scriptEvents
  split <;> simp_all

/-- If a script is loaded, the machine has the given constants and no power, is in shape, and is offered `RESET` first (R91). -/
theorem loadScript_spec {c : Cfg} {lines : List ScriptLine} {s : State} (hc : c.Wf) (h : loadScript c lines = some s) :
    s.cfg = c ∧ s.power = .unpowered ∧ s.Shaped ∧ ∃ es, s.inbox = .reset :: es := by
  simp only [loadScript, Option.map_eq_some_iff] at h
  obtain ⟨p, hp, rfl⟩ := h
  obtain ⟨hm, hb, rest, hr⟩ := splitScript_spec (by decide) (by simp) hp
  refine ⟨rfl, rfl, ⟨hc, by simp, hm, hb⟩, ?_⟩
  rw [hr]
  exact scriptEvents_reset rest

end Sys2Proof.Machine
end

