-- ==== Sys2Proof/Laws/Step.lean ====
section
/-! SUPPORT. What one step can do, said once: if `step` answers a next state, exactly one kind of event has been taken. -/

namespace Sys2Proof.Machine

/-- The kinds of step. -/
inductive StepCase (s : State) : State → Prop where
  /-- No event is offered, with power in `RUN` or without power: all state is held. -/
  | idle (h : s.inbox = []) (hp : s.power = .unpowered ∨ s.Running) : StepCase s s
  /-- `RESET`. -/
  | reset (es : List Event) (h : s.inbox = .reset :: es) (hp : s.power = .unpowered ∨ s.Running) :
      StepCase s (resetRegisters (s.withInbox es))
  /-- `TICK`. -/
  | tick (sample : List Lane) (es : List Event) (h : s.inbox = .tick sample :: es) (hr : s.Running)
      (hn : sample.length = s.cfg.nCh) : StepCase s (tick sample (s.withInbox es))
  /-- An illegal command word. -/
  | illegal (w : Word64) (es : List Event) (h : s.inbox = .cmd w :: es) (hr : s.Running) (hd : decode w = none) :
      StepCase s ((s.withInbox es).complete (illegal (s.withInbox es)))
  /-- A command. -/
  | command (w : Word64) (i : Instr) (es : List Event) (h : s.inbox = .cmd w :: es) (hr : s.Running)
      (hd : decode w = some i) : StepCase s ((s.withInbox es).complete (transaction i (s.withInbox es)))
  /-- `POWERLOSS(k)`. -/
  | powerLoss (op : Operation) (k : Nat) (es : List Event) (h : s.inbox = .powerLoss op k :: es)
      (hp : s.power = .powered) (hph : s.phase = .boot ↔ op = .boot) (ht : tickCutOk op (s.withInbox es) = none)
      (hk : k ≤ (operationWrites op (s.withInbox es)).length) : StepCase s (losePower op k (s.withInbox es))
  /-- The boot sequence. -/
  | boot (hp : s.power = .powered) (hph : s.phase = .boot) (h : ∀ k es, s.inbox ≠ .powerLoss .boot k :: es) :
      StepCase s (boot s)

theorem powerLoss_next {op : Operation} {k : Nat} {s t : State} (h : powerLoss op k s = .next t) :
    tickCutOk op s = none ∧ k ≤ (operationWrites op s).length ∧ t = losePower op k s := by
  unfold powerLoss at h
  split at h
  · cases h
  · next ht =>
    split at h
    · next hk => exact ⟨ht, hk, by cases h; rfl⟩
    · cases h

/-- If `step` answers `t`, then the constants are a configuration and `t` is one of the kinds of step. -/
theorem step_case {s t : State} (h : step s = .next t) : s.cfg.Wf ∧ StepCase s t := by
  unfold step at h
  split at h
  · next hc =>
    refine ⟨hc, ?_⟩
    unfold takeEvent at h
    split at h
    · next hp =>
      unfold takeUnpowered at h
      split at h
      · next he => cases h; exact .idle he (.inl hp)
      · next es he => cases h; exact .reset es he (.inl hp)
      · cases h
    · next hp hph =>
      unfold takeBooting at h
      split at h
      · next k es he =>
        obtain ⟨ht, hk, rfl⟩ := powerLoss_next h
        exact .powerLoss _ k es he hp (by simp [hph]) ht hk
      · next hne => cases h; exact .boot hp hph hne
    · next hp hph =>
      have hr : s.Running := ⟨hp, hph⟩
      unfold takeRunning at h
      split at h
      · next he => cases h; exact .idle he (.inr hr)
      · next es he => cases h; exact .reset es he (.inr hr)
      · next sample es he =>
        split at h
        · next hn => cases h; exact .tick sample es he hr hn
        · cases h
      · next w es he =>
        unfold Machine.command at h
        split at h
        · next hd => cases h; exact .illegal w es he hr hd
        · next i hd =>
          rw [exec_eq] at h
          cases h
          exact .command w i es he hr hd
      · cases h
      · next k es he =>
        obtain ⟨ht, hk, rfl⟩ := powerLoss_next h
        exact .powerLoss _ k es he hp (by simp [hph]) ht hk
      · next sample acts k es he =>
        obtain ⟨ht, hk, rfl⟩ := powerLoss_next h
        exact .powerLoss _ k es he hp (by simp [hph]) ht hk
      · next w k es he =>
        obtain ⟨ht, hk, rfl⟩ := powerLoss_next h
        exact .powerLoss _ k es he hp (by simp [hph]) ht hk
  · cases h

/-! ## The step of each kind of state and event -/

section forward
variable {s : State} (hc : s.cfg.Wf)
include hc

theorem step_idle (hp : s.power = .unpowered ∨ s.Running) (h : s.inbox = []) : step s = .next s := by
  rcases hp with hp | ⟨hp, hph⟩
  · cases hph : s.phase <;> simp [step, hc, takeEvent, hp, takeUnpowered, h, hph]
  · simp [step, hc, takeEvent, hp, hph, takeRunning, h]

theorem step_reset (hp : s.power = .unpowered ∨ s.Running) {es : List Event} (h : s.inbox = .reset :: es) :
    step s = .next (resetRegisters (s.withInbox es)) := by
  rcases hp with hp | ⟨hp, hph⟩
  · cases hph : s.phase <;> simp [step, hc, takeEvent, hp, takeUnpowered, h, hph]
  · simp [step, hc, takeEvent, hp, hph, takeRunning, h]

theorem step_tick (hr : s.Running) {sample : List Lane} {es : List Event} (h : s.inbox = .tick sample :: es)
    (hn : sample.length = s.cfg.nCh) : step s = .next (tick sample (s.withInbox es)) := by
  simp [step, hc, takeEvent, hr.1, hr.2, takeRunning, h, hn]

theorem step_illegal (hr : s.Running) {w : Word64} {es : List Event} (h : s.inbox = .cmd w :: es) (hd : decode w = none) :
    step s = .next ((s.withInbox es).answered (respond .errIllegal 0 0 0)) := by
  simp [step, hc, takeEvent, hr.1, hr.2, takeRunning, h, command, hd, illegal]

theorem step_command (hr : s.Running) {w : Word64} {i : Instr} {es : List Event} (h : s.inbox = .cmd w :: es)
    (hd : decode w = some i) : step s = exec i (s.withInbox es) := by
  simp [step, hc, takeEvent, hr.1, hr.2, takeRunning, h, command, hd]

theorem step_boot (hp : s.power = .powered) (hph : s.phase = .boot) (h : ∀ k es, s.inbox ≠ .powerLoss .boot k :: es) :
    step s = .next (boot s) := by
  simp only [step, if_pos hc, takeEvent, hp, hph]
  unfold takeBooting
  split
  · next he => exact absurd he (h _ _)
  · rfl

theorem step_powerLoss (hp : s.power = .powered) {op : Operation} {k : Nat} {es : List Event}
    (hph : s.phase = .boot ↔ op = .boot) (h : s.inbox = .powerLoss op k :: es) :
    step s = powerLoss op k (s.withInbox es) := by
  cases op <;> cases hq : s.phase <;> simp_all [step, takeEvent, takeBooting, takeRunning]

end forward

/-- One more step of a run. -/
theorem run_succ {s t : State} (h : step s = .next t) (k : Nat) : core.run (k + 1) s = core.run k t := by
  have h' : core.step s = .next t := h
  simp only [Host.Core.run, h']

/-- What a command does does not depend on the events that wait. -/
theorem transaction_withInbox (i : Instr) (s : State) (es : List Event) :
    transaction i (s.withInbox es) = transaction i s := by
  cases i <;> rfl

theorem operationWrites_withInbox (op : Operation) (s : State) (es : List Event) :
    operationWrites op (s.withInbox es) = operationWrites op s := by
  cases op with
  | idle => rfl
  | boot => rfl
  | tick _ _ => rfl
  | cmd w =>
    simp only [operationWrites, commandWrites]
    split
    · rfl
    · rw [transaction_withInbox]

end Sys2Proof.Machine
end

