-- ==== Sys2Proof/Tests/Slice0.lean ====
section
/-! SUPPORT. Tests. Expected values are those of spec/95_test_vectors.md, named by their vector, or worked by hand from the
rule named. The last part shows, for each obligation with hypotheses, states and operands that meet them. -/

namespace Sys2Proof.Tests

open Sys2Proof.Machine

/-! ## WellFormed: an ill-formed record for each check, which the check refuses (R8, R9; U12) -/

theorem test_wf_reference : Cfg.ref.wf = true := by decide
theorem test_wf_fraction : ({ Cfg.ref with fracBits := 16 } : Cfg).wf = false := by decide
theorem test_wf_no_channel : ({ Cfg.ref with nCh := 0, offsetInit := [] } : Cfg).wf = false := by decide
theorem test_wf_channels : ({ Cfg.ref with nCh := 257, nvSize := 65536, offsetInit := List.replicate 257 0 } : Cfg).wf = false := by
  decide +kernel
theorem test_wf_nv_size : ({ Cfg.ref with nvSize := 65537 } : Cfg).wf = false := by decide
theorem test_wf_marker_in_memory : ({ Cfg.ref with markerAddr := 1024 } : Cfg).wf = false := by decide
theorem test_wf_marker_in_block : ({ Cfg.ref with markerAddr := 33 } : Cfg).wf = false := by decide
theorem test_wf_marker_before_block : ({ Cfg.ref with markerAddr := 2 } : Cfg).wf = false := by decide
theorem test_wf_marker_after_blocks : ({ Cfg.ref with markerAddr := 34 } : Cfg).wf = true := by decide
theorem test_wf_block_size : ({ Cfg.ref with blockSize := 3 } : Cfg).wf = false := by decide
theorem test_wf_blocks_fit : ({ Cfg.ref with nvSize := 33 } : Cfg).wf = false := by decide
theorem test_wf_bounds : ({ Cfg.ref with tMin := 800 } : Cfg).wf = false := by decide
theorem test_wf_bounds_fx : ({ Cfg.ref with tMax := 32768 } : Cfg).wf = false := by decide
theorem test_wf_step : ({ Cfg.ref with tStep := 0 } : Cfg).wf = false := by decide
theorem test_wf_offset_bounds : ({ Cfg.ref with ofsMin := 33 } : Cfg).wf = false := by decide
theorem test_wf_offset_step : ({ Cfg.ref with ofsStep := 8 } : Cfg).wf = false := by decide
theorem test_wf_default_order : ({ Cfg.ref with defaultOff := 800 } : Cfg).wf = false := by decide
theorem test_wf_default_bound : ({ Cfg.ref with defaultOn := 801 } : Cfg).wf = false := by decide
theorem test_wf_offset_init : ({ Cfg.ref with offsetInit := List.replicate 8 33 } : Cfg).wf = false := by decide
theorem test_wf_offset_count : ({ Cfg.ref with offsetInit := List.replicate 7 0 } : Cfg).wf = false := by decide
theorem test_wf_channel_field :
    (Instr.getOffset 8).wellFormed 8 = false ∧ (Instr.getOffset 7).wellFormed 8 = true ∧
    (Instr.stWrthr 200 0 0).wellFormed 8 = false ∧ Instr.stIsinit.wellFormed 8 = true := by decide

/-! ## Decode: one word of every row, from the fields of R81 and R84 -/

theorem test_decode_fadd : decode 0x0100000000080110 = some (.fadd 272 8) := by decide
theorem test_decode_fcmp : decode 0x0200000001200140 = some (.fcmp 320 288) := by decide
theorem test_decode_fclamp : decode 0x03000320FEC00384 = some (.fclamp 900 0xFEC0 800) := by decide
theorem test_decode_isinit : decode 0x1000000000000000 = some .stIsinit := by decide
theorem test_decode_initdef : decode 0x1100000000000000 = some .stInitdef := by decide
theorem test_decode_rdthr : decode 0x1205000000000000 = some (.stRdthr 5) := by decide
theorem test_decode_wrthr : decode 0x13000000FEC00320 = some (.stWrthr 0 800 0xFEC0) := by decide
theorem test_decode_adjOnInc : decode 0x2000000000000000 = some (.adjOnInc 0) := by decide
theorem test_decode_adjOnDec : decode 0x2100000000000000 = some (.adjOnDec 0) := by decide
theorem test_decode_adjOffInc : decode 0x2200000000000000 = some (.adjOffInc 0) := by decide
theorem test_decode_adjOffDec : decode 0x2300000000000000 = some (.adjOffDec 0) := by decide
theorem test_decode_adjOfsInc : decode 0x2401000000000000 = some (.adjOfsInc 1) := by decide
theorem test_decode_adjOfsDec : decode 0x2501000000000000 = some (.adjOfsDec 1) := by decide
theorem test_decode_getReading : decode 0x3003000000000000 = some (.getReading 3) := by decide
theorem test_decode_getCoolon : decode 0x3100000000000000 = some (.getCoolon 0) := by decide
theorem test_decode_getCooloff : decode 0x3200000000000000 = some (.getCooloff 0) := by decide
theorem test_decode_getOffset : decode 0x3307000000000000 = some (.getOffset 7) := by decide

/-- Bit by bit: `op` 0001 0011, `ch` 0000 0110, `C` 0, `B` 1111 1110 1100 0000, `A` 0000 0001 0100 0000. -/
theorem test_decode_bits : decode 0b0001001100000110000000000000000011111110110000000000000101000000 =
    some (.stWrthr 6 320 0xFEC0) := by decide

/-! 95_test_vectors.md 2.5: unknown opcodes, and reserved fields that are not 0. -/
theorem test_decode_unknown : decode 0x0000000000000000 = none ∧ decode 0xFF00000000000000 = none ∧
    decode 0x0400000000000000 = none ∧ decode 0x0F00000000000000 = none ∧ decode 0x1400000000000000 = none ∧
    decode 0x2600000000000000 = none ∧ decode 0x3400000000000000 = none := by decide

theorem test_decode_reserved : decode 0x0101000000010001 = none ∧ decode 0x0100000100010001 = none ∧
    decode 0x1000000000000001 = none ∧ decode 0x1001000000000000 = none ∧ decode 0x1200000000000001 = none ∧
    decode 0x1300000101200140 = none ∧ decode 0x1309000101200140 = none := by decide

theorem test_decodeTableWord : decodeTableWord 64 0x3307000000000000 = some (.getOffset 7) ∧
    decodeTableWord 64 0x3400000000000000 = none := by decide

/-! ## Helpers: small states, and what one command does -/

/-- After the first boot of a device whose NV memory lists nothing (95_test_vectors.md 2.6). -/
def booted : State := boot State.reset

/-- A store that is not initialised, in `RUN` (95_test_vectors.md S2 (a)). -/
def uninitialised : State := { State.reset with phase := .run }

/-- Channel 0 holds this pair, and its block too. -/
def paired (on off : Fx) : State := booted.complete (booted.commitPair 0 on off 0 0)

/-- Channel 1 holds this offset. -/
def withOffset (x : Fx) : State := { booted with channels := booted.channels.set 1 { booted.chan 1 with offset := x } }

/-- Channel `i` holds these registers. -/
def holding (i : Nat) (c : Channel) : State := { booted with channels := booted.channels.set i c }

/-- These events are offered. -/
def offered (s : State) (es : List Event) : State := { s with inbox := es }

/-- What a fact about the next state says of an outcome. -/
def thenState {α : Type} (o : Host.Outcome State Fault Refusal) (f : State → α) : Option α :=
  match o with
  | .next t => some (f t)
  | .fault _ => none
  | .refused _ => none

/-- The response word of the outcome. -/
def answer (o : Host.Outcome State Fault Refusal) : Option Word64 := (thenState o fun t => t.responses.getLast?).join

/-- The bytes of block 0. -/
def block0 (s : State) : List Byte := [s.nv.read 2, s.nv.read 3, s.nv.read 4, s.nv.read 5]

/-! ## The commands -/

theorem test_fadd : answer (exec (.fadd 304 (zext16 (-32))) booted) = some 0x0000000000000110 ∧
    answer (exec (.fadd 0x8000 0x7FFF) booted) = some 0x000000000000FFFF := by decide
/-- 32767 + 1: `OK`, `OVF`, and a free `V0`, which a new draw stands for (R111, U1). -/
theorem test_fadd_overflow : (fadd 0x7FFF 1 booted).serial = booted.serial + 1 ∧
    (fadd 0x7FFF 1 booted).response = respond .ok 0x08 0 (Config.freeFx booted.serial 0) := ⟨by decide, rfl⟩
theorem test_fcmp : answer (exec (.fcmp 0xFFFF 0) booted) = some 0x0001000000000000 ∧
    answer (exec (.fcmp 0x7FFF 0x8000) booted) = some 0x0004000000000000 := by decide
theorem test_fclamp : answer (exec (.fclamp 0xFEBF 0xFEC0 800) booted) = some 0x000000000000FEC0 ∧
    answer (exec (.fclamp 0 10 5) booted) = some 0x000000000000000A := by decide
/-- M1, and S2 step 1. -/
theorem test_isinit : answer (exec .stIsinit booted) = some 0x0020000000000000 ∧
    answer (exec .stIsinit uninitialised) = some 0x0000000000000000 := by decide
/-- S2 step 3 and M14. -/
theorem test_initdef : answer (exec .stInitdef uninitialised) = some 0x0000000000000000 ∧
    thenState (exec .stInitdef (paired 320 288)) block0 = some [0x20, 0x03, 0xC0, 0xFE] := by decide
/-- M2, and S2 step 2. -/
theorem test_rdthr : answer (exec (.stRdthr 0) booted) = some 0x00000000FEC00320 ∧
    answer (exec (.stRdthr 0) uninitialised) = some 0x0100000000000000 := by decide
/-- M3, M4. -/
theorem test_wrthr : answer (exec (.stWrthr 0 320 288) booted) = some 0x0000000001200140 ∧
    thenState (exec (.stWrthr 0 320 288) booted) block0 = some [0x40, 0x01, 0x20, 0x01] ∧
    answer (exec (.stWrthr 0 320 352) (paired 320 288)) = some 0x0200000000000000 := by decide
/-- 95_test_vectors.md 2.5: the channel is tested before the pair. -/
theorem test_wrthr_channel : answer (exec (.stWrthr 200 0 0) booted) = some 0x0400000000000000 := by decide
/-- A1, A6. -/
theorem test_adjOnInc : answer (exec (.adjOnInc 0) (paired 320 288)) = some 0x0000000000000148 ∧
    thenState (exec (.adjOnInc 0) (paired 320 288)) block0 = some [0x48, 0x01, 0x20, 0x01] ∧
    answer (exec (.adjOnInc 0) (paired 796 0)) = some 0x020000000000031C := by decide
/-- A16: the exact sum, not the wrapped one. -/
theorem test_adjOnInc_wrap : answer (exec (.adjOnInc 0) (paired 0x7FFF 0x8000)) = some 0x0200000000007FFF := by decide
/-- A4, A15. -/
theorem test_adjOnDec : answer (exec (.adjOnDec 0) (paired 328 320)) = some 0x0200000000000148 ∧
    answer (exec (.adjOnDec 0) (paired 9 0)) = some 0x0000000000000001 := by decide
/-- A2, A3. -/
theorem test_adjOffInc : answer (exec (.adjOffInc 0) (paired 328 288)) = some 0x0000000000000128 ∧
    thenState (exec (.adjOffInc 0) (paired 328 288)) block0 = some [0x48, 0x01, 0x28, 0x01] ∧
    answer (exec (.adjOffInc 0) (paired 328 320)) = some 0x0200000000000140 := by decide
/-- A9, A23. -/
theorem test_adjOffDec : answer (exec (.adjOffDec 0) (paired 0 (zext16 (-316)))) = some 0x020000000000FEC4 ∧
    thenState (exec (.adjOffDec 0) (paired 0xFFFF 0xFFFF)) block0 = some [0xFF, 0xFF, 0xF7, 0xFF] := by decide
/-- O3, O4. -/
theorem test_adjOfsInc : answer (exec (.adjOfsInc 1) (withOffset 31)) = some 0x0000000000000020 ∧
    answer (exec (.adjOfsInc 1) (withOffset 32)) = some 0x0200000000000020 := by decide
/-- O5, O7. -/
theorem test_adjOfsDec : answer (exec (.adjOfsDec 1) (withOffset 0)) = some 0x000000000000FFFF ∧
    answer (exec (.adjOfsDec 1) (withOffset (zext16 (-32)))) = some 0x020000000000FFE0 := by decide
/-- 95_test_vectors.md 2.8. -/
theorem test_getReading :
    answer (exec (.getReading 3) (holding 3 { Channel.absent with reading := 304, rdValid := true })) =
      some 0x0010000000000130 ∧
    answer (exec (.getReading 1) (holding 1 { Channel.absent with reading := 318 })) = some 0x000000000000013E := by decide
theorem test_getCoolon : answer (exec (.getCoolon 0) (paired 320 288)) = some 0x0000000000000140 := by decide
theorem test_getCooloff : answer (exec (.getCooloff 0) booted) = some 0x000000000000FEC0 := by decide
theorem test_getOffset : answer (exec (.getOffset 7) (holding 7 { Channel.absent with offset := zext16 (-3) })) =
    some 0x000000000000FFFD ∧ answer (exec (.getOffset 8) booted) = some 0x0400000000000000 := by decide

/-! ## Events -/

/-- K2, K7, K10 and K21, on channels 0 to 3. -/
theorem test_tick :
    let c : Channel := { Channel.absent with coolOn := 320, coolOff := 288 }
    (tickChannels 0 [.valid 320, .valid 318, .fault, .valid 280]
      [c, { c with offset := 2 }, { c with reading := 400, rdValid := true }, { c with coolOn := 272, act := .on }]).map
        (fun d => (d.act, d.reading, d.rdValid)) =
      [(.on, 320, true), (.on, 318, true), (.off, 400, false), (.off, 280, true)] := by decide
theorem test_tick_acts : thenState (step (offered (paired 320 288) [.tick (List.replicate 8 (.valid 300))])) (fun t => t.trace) =
    some ((List.range 8).map fun i => ⟨i, .off⟩) := by decide
/-- R222 on an erased NV memory: 17 writes, the marker and the default pair. -/
theorem test_boot : (bootWrites State.reset).length = 17 ∧ booted.nv.read 0 = 0x5A ∧ booted.nv.read 1 = 0xFF ∧
    block0 booted = [0x20, 0x03, 0xC0, 0xFE] ∧ booted.phase = .run := by decide
/-- The first word after reset, as the pipeline places it. -/
theorem test_withFetchWord : answer (step (State.reset.withFetchWord 64 0x13000000FEC00320)) = some 0x00000000FEC00320 := by
  decide
theorem test_step_illegal : answer (step (offered booted [.cmd 0x1309000101200140])) = some 0x0300000000000000 := by decide
theorem test_powerLoss_count : (commandWrites 0x1100000000000000 booted).length = 17 ∧
    (commandWrites 0x1300000001600140 booted).length = 0 := by decide

/-! ## Conversions and scripts -/

/-- 95_test_vectors.md 2.1. -/
theorem test_toFixed : ([(4, 1 / 32), (4, -1 / 32), (4, 3 / 100), (4, -3 / 32), (0, 5 / 2), (8, 999 / 1000), (15, -1)].map
    fun p : Nat × Rat => toFixed? p.2 p.1) = [some 1, some (zext16 (-1)), some 0, some (zext16 (-2)), some 3, some 256,
      some 0x8000] := by decide +kernel
theorem test_toFixed_out : toFixed? (2047.96875 : Rat) 4 = none ∧ toFixed? 1 15 = none ∧
    toFixed? (-2048.03 : Rat) 4 = some 0x8000 := by decide +kernel
/-- Lines in the syntax of R90 to R93. -/
theorem test_parse_wrthr : parseLine Cfg.ref "ST.WRTHR 0, #20.0, 0x0120 -> OK v0=320 v1=288 ; M3".toList =
    some ⟨.command (.stWrthr 0 320 288), some (.response .ok (some 320) (some 288) 0)⟩ := by decide +kernel
theorem test_parse_set : parseLine Cfg.ref "ST.SET 3, 320, #-0.5".toList =
    some ⟨.command (.stWrthr 3 320 0xFFF8), none⟩ := by decide +kernel
theorem test_parse_tick : parseLine Cfg.ref "TICK 272, -, -8, -, -, -, -, 0x7FFF -> ACT 0:OFF 1:ON".toList =
    some ⟨.tick [.valid 272, .fault, .valid 0xFFF8, .fault, .fault, .fault, .fault, .valid 0x7FFF],
      some (.acts [⟨0, .off⟩, ⟨1, .on⟩])⟩ := by decide +kernel
/-- R93: the shorthands take a fault as well as a sample, since each lane of a `TICK` may be one (R91). -/
theorem test_parse_tickAll : parseLine Cfg.ref "TICKALL -".toList = some ⟨.tick (List.replicate 8 .fault), none⟩ ∧
    parseLine Cfg.ref "TICKALL 272".toList = some ⟨.tick (List.replicate 8 (.valid 272)), none⟩ := by decide +kernel
theorem test_parse_tick1 : parseLine Cfg.ref "TICK1 7, -".toList = some ⟨.tick (List.replicate 8 .fault), none⟩ ∧
    parseLine Cfg.ref "TICK1 7, 8".toList = some ⟨.tick (List.replicate 7 .fault ++ [.valid 8]), none⟩ := by decide +kernel
theorem test_parse_nv : parseLine Cfg.ref "NV 0x0002: 40 01 FF".toList = some ⟨.nv 2 [0x40, 0x01, 0xFF], none⟩ := by
  decide +kernel
theorem test_parse_rejects : parseLine Cfg.ref "FADD 32768, 0".toList = none ∧ parseLine Cfg.ref "GET.OFFSET 256".toList = none ∧
    parseLine Cfg.ref "FADD #2047.96875, 0".toList = none ∧ parseLine Cfg.ref "TICK 1, 2".toList = none := by decide +kernel
/-- The model's own choices (log entry 23): a lane that does not exist, a line with a comment only, a missing status name, and
`NV` bytes beyond the memory. -/
theorem test_parse_choices : parseLine Cfg.ref "TICK1 8, 0".toList = none ∧ parseLine Cfg.ref " ; note".toList = none ∧
    parseLine Cfg.ref "GET.OFFSET 0 -> v0=1".toList = none ∧ loadScript Cfg.ref [.nv 1023 [1, 2], .reset] = none ∧
    (splitScript 1024 [] [.nv 1023 [1], .reset]).isSome = true := by decide +kernel
/-- R182, R61: the `ACT` event of an interrupted tick and the lost registers are different draws. -/
theorem test_losePower_draws (k : Nat) : ((losePower (.tick [] 0) k booted).chan 0) = lostChannel (booted.serial + 1) 0 ∧
    (losePower (.tick [] 0) k booted).serial = booted.serial + 2 := ⟨rfl, rfl⟩

/-! ## Witnesses: for each obligation with hypotheses, states and operands that meet them together -/

theorem witness_DecodedWordIsTheEncoding : decode 0x1300000001200140 = some (.stWrthr 0 320 288) := by decide

theorem witness_StepRunsTheDecodedCommand :
    let s := offered booted [.cmd 0x3307000000000000]
    s.cfg.Wf ∧ s.Running ∧ s.inbox = .cmd 0x3307000000000000 :: [] ∧ decode 0x3307000000000000 = some (.getOffset 7) := by
  decide

/-- The three clauses, at the last channel that exists and the first that does not. -/
theorem witness_DecodingOrderOfR85 :
    let s := offered booted [.cmd 0x3400000000000000]
    (s.cfg.Wf ∧ s.Running ∧ decode 0x3400000000000000 = none) ∧
    (decode 0x3308000000000000 = some (.getOffset 8) ∧ (Instr.getOffset 8).channel? = some 8 ∧
      s.cfg.nCh ≤ (8 : Byte).toNat) ∧
    (decode 0x3307000000000000 = some (.getOffset 7) ∧ (Instr.getOffset 7).wellFormed s.cfg.nCh = true) := by decide

/-- One word for each of the five outcomes of R208. -/
theorem witness_StatusFollowsTheOrderOfChecks :
    let s := offered uninitialised [.cmd 0x1200000000000000]
    s.cfg.Wf ∧ s.Running ∧ s.inbox = .cmd 0x1200000000000000 :: [] ∧ expectedStatus s (decode 0x1200000000000000) = 0x01 ∧
    expectedStatus s none = 0x03 ∧ expectedStatus s (decode 0x1208000000000000) = 0x04 ∧
    expectedStatus s (decode 0x1300000001600140) = 0x02 ∧ expectedStatus s (decode 0x1300000001200140) = 0x00 := by decide

theorem witness_StepTakesAtMostOneEvent :
    step (offered booted [.cmd 0, .reset]) = .next ((offered booted [.reset]).answered (respond .errIllegal 0 0 0)) :=
  step_illegal (s := offered booted [.cmd 0, .reset]) (by decide) (by decide) rfl (by decide)

theorem witness_NoStepWithoutAConfiguration : ¬ ({ booted with cfg := { Cfg.ref with nCh := 0 } } : State).cfg.Wf := by decide

/-- An answer that is an error. -/
theorem witness_ErrorsHaveNoEffectAtAll :
    (transaction (.stWrthr 0 320 320) booted).response.extractLsb' 56 8 ≠ 0x00#8 := by decide

/-- A next state; and for each clause a channel that it speaks of. -/
theorem witness_CommandsWriteOnlyWhatTheTableSays :
    exec (.adjOnDec 0) booted = .next (booted.complete (adjOnDec 0 booted)) ∧ Instr.adjOnDec 0 ≠ .stInitdef ∧
    (∀ ch, offsetChannel? (.adjOnDec 0) = some ch → ch.toNat ≠ 0) ∧
    (∀ ch, thresholdChannel? (.adjOnDec 0) = some ch → ch.toNat ≠ 1) ∧
    (∀ ch, thresholdChannel? (.adjOnDec 0) = some ch → ¬ inBlock booted.cfg ch.toNat 6) := by
  refine ⟨rfl, by decide, fun ch h => (nomatch h), fun ch h => ?_, fun ch h => ?_⟩ <;> cases h
  · decide
  · simp only [inBlock]; decide

theorem witness_FaddAnswersTheExactSum :
    (0x4000 : Fx).toInt + (0x3FFF : Fx).toInt = 32767 ∧ (0xC000 : Fx).toInt + (0xC000 : Fx).toInt = -32768 ∧
    (0x7FFF : Fx).toInt + (1 : Fx).toInt = 32768 ∧ (0x8000 : Fx).toInt + (0xFFFF : Fx).toInt = -32769 := by decide

theorem witness_FcmpComparesSigned :
    (0xFFFF : Fx).toInt < (0 : Fx).toInt ∧ (5 : Fx) = 5 ∧ (0x8000 : Fx).toInt < (0x7FFF : Fx).toInt := by decide

/-- Below, above, at each bound, and the order of the bounds. -/
theorem witness_FclampAnswersTheNearestInRange :
    let lo : Fx := 0xFEC0
    let hi : Fx := 800
    (0xFEBF : Fx).toInt < lo.toInt ∧ (lo.toInt ≤ (801 : Fx).toInt ∧ hi.toInt < (801 : Fx).toInt) ∧
    (lo.toInt ≤ lo.toInt ∧ lo.toInt ≤ hi.toInt) ∧ lo.toInt ≤ (5 : Fx).toInt ∧ (5 : Fx).toInt ≤ hi.toInt := by decide

/-- A tie, on both sides of zero. -/
theorem witness_ToFixedRoundsHalfAwayFromZero :
    toFixed? (1 / 32) 4 = some 1 ∧ toFixed? (-(1 / 32)) 4 = some (zext16 (-1)) := by decide +kernel

theorem witness_ConversionRoundTrips : toFixed? (1 / 10) 4 = some 2 := by decide +kernel

theorem witness_DisplayValuesOfTheOperatingRange : (0 ≤ 15) ∧ (15 ≤ 15) := by decide

theorem witness_NvReadsReturnTheLatestWrite : Mem.Wf booted.nv ∧ Mem.Wf ([] : Mem) := by decide

theorem witness_NvMemoryHasOneForm : Mem.Wf booted.nv ∧ (∀ a, booted.nv.read a = booted.nv.read a) := ⟨by decide, fun _ => rfl⟩

/-- The last channel and its neighbour, with two bytes of padding in a block: its first byte, the last byte of its fields, and its
last byte. -/
theorem witness_BlocksAndMarkerAreApart :
    let c : Cfg := { Cfg.ref with blockSize := 6 }
    c.Wf ∧ 7 < c.nCh ∧ 6 < c.nCh ∧ 6 ≠ 7 ∧ inBlock c 7 44 ∧ inBlock c 7 47 ∧ ¬ inBlock c 7 49 ∧
    (blockAddr c 7 ≤ 44 ∧ 44 < blockAddr c 7 + c.blockSize) ∧ (blockAddr c 7 ≤ 49 ∧ 49 < blockAddr c 7 + c.blockSize) := by
  unfold inBlock; decide

theorem witness_StInitdefInitialisesEveryChannel : uninitialised.Shaped ∧ 7 < uninitialised.cfg.nCh ∧
    1 ≠ uninitialised.cfg.markerAddr ∧ ∀ i, i < uninitialised.cfg.nCh → ¬ inBlock uninitialised.cfg i 1 := by
  unfold inBlock; decide

/-- A channel that does not exist, and the last one with a valid and with an invalid marker. -/
theorem witness_StRdthrReadsTheBlock :
    booted.cfg.nCh ≤ (8 : Byte).toNat ∧ ((7 : Byte).toNat < booted.cfg.nCh ∧ booted.nv.read booted.cfg.markerAddr = booted.cfg.markerValue) ∧
    ((7 : Byte).toNat < uninitialised.cfg.nCh ∧
      uninitialised.nv.read uninitialised.cfg.markerAddr ≠ uninitialised.cfg.markerValue) := by decide

/-- Both bounds, a dead band of one unit, and equal thresholds. -/
theorem witness_StWrthrCommitsOrRejects :
    booted.cfg.nCh ≤ (8 : Byte).toNat ∧ booted.Shaped ∧ (7 : Byte).toNat < booted.cfg.nCh ∧
    validPair booted.cfg (800 : Fx).toInt (0xFEC0 : Fx).toInt = true ∧
    validPair booted.cfg (9 : Fx).toInt (8 : Fx).toInt = true ∧ validPair booted.cfg (8 : Fx).toInt (8 : Fx).toInt = false := by
  decide

theorem witness_ValidPairIsBoundsAndStrictOrder : Cfg.ref.Wf ∧ validPair Cfg.ref (-319) (-320) = true := by decide

/-- A7, A15 committed; A6, A4 rejected. -/
theorem witness_AdjOnStepsCoolOnOrRejects :
    ((paired 792 0).Shaped ∧ (0 : Byte).toNat < (paired 792 0).cfg.nCh) ∧
    validPair Cfg.ref (((paired 792 0).chan 0).coolOn.toInt + 8) ((paired 792 0).chan 0).coolOff.toInt = true ∧
    validPair Cfg.ref (((paired 9 0).chan 0).coolOn.toInt - 8) ((paired 9 0).chan 0).coolOff.toInt = true ∧
    validPair Cfg.ref (((paired 796 0).chan 0).coolOn.toInt + 8) ((paired 796 0).chan 0).coolOff.toInt = false ∧
    validPair Cfg.ref (((paired 328 320).chan 0).coolOn.toInt - 8) ((paired 328 320).chan 0).coolOff.toInt = false := by
  decide +kernel

/-- A12, A10 committed; A13, A11 rejected. -/
theorem witness_AdjOffStepsCoolOffOrRejects :
    ((paired 9 0).Shaped ∧ (0 : Byte).toNat < (paired 9 0).cfg.nCh) ∧
    validPair Cfg.ref ((paired 9 0).chan 0).coolOn.toInt (((paired 9 0).chan 0).coolOff.toInt + 8) = true ∧
    validPair Cfg.ref ((paired 0 0xFEC8).chan 0).coolOn.toInt (((paired 0 0xFEC8).chan 0).coolOff.toInt - 8) = true ∧
    validPair Cfg.ref ((paired 8 0).chan 0).coolOn.toInt (((paired 8 0).chan 0).coolOff.toInt + 8) = false ∧
    validPair Cfg.ref ((paired 0 0xFEC0).chan 0).coolOn.toInt (((paired 0 0xFEC0).chan 0).coolOff.toInt - 8) = false := by
  decide +kernel

/-- O3, O6 committed; O4, O7 rejected. -/
theorem witness_AdjOfsStepsTheOffsetOrRejects :
    ((withOffset 31).Shaped ∧ (1 : Byte).toNat < (withOffset 31).cfg.nCh) ∧
    ((withOffset 31).chan 1).offset.toInt + 1 ≤ Cfg.ref.ofsMax ∧
    Cfg.ref.ofsMin ≤ ((withOffset (zext16 (-31))).chan 1).offset.toInt - 1 ∧
    Cfg.ref.ofsMax < ((withOffset 32).chan 1).offset.toInt + 1 ∧
    ((withOffset (zext16 (-32))).chan 1).offset.toInt - 1 < Cfg.ref.ofsMin := by decide

/-- The first channel that does not exist, and the last number. -/
theorem witness_CommandsOfAbsentChannelsChangeNothing :
    (Instr.adjOfsDec 8).channel? = some 8 ∧ booted.cfg.nCh ≤ (8 : Byte).toNat ∧ (Instr.stRdthr 255).channel? = some 255 ∧
    booted.cfg.nCh ≤ (255 : Byte).toNat := by decide

theorem witness_AccessorsAnswerTheirRegister : booted.cfg.nCh ≤ (8 : Byte).toNat ∧ (0 : Byte).toNat < booted.cfg.nCh ∧ (7 : Byte).toNat < booted.cfg.nCh := by
  decide

theorem witness_TransitionTestsThePresentStateOnly : (288 : Int) < 289 ∧ (319 : Int) < 320 := by decide

/-- The premises of (a), (b) and (c). -/
theorem witness_HysteresisConsequencesOfR151 :
    (∀ r ∈ ([289, 319, 5000] : List Int), 288 < r) ∧ (∀ r ∈ ([319, 289, -300] : List Int), r < 320) ∧ (288 : Int) < 320 ∧
    ([272, 288, 320] : List Int).Pairwise (· ≤ ·) ∧ ([320, 288, 272] : List Int).Pairwise (· ≥ ·) ∧
    (272 : Int) ≤ 280 ∧ (280 : Int) ≤ 288 := by decide

/-- A sample with valid lanes, the lowest reading that an offset of -32 keeps in range, and a faulted lane. -/
def mixedSample : List Lane := [.valid 320, .fault, .valid 0x8020, .fault, .fault, .fault, .fault, .valid 0x7FFF]

theorem witness_TickStepsEveryChannel :
    let s := offered booted [.tick mixedSample]
    s.cfg.Wf ∧ s.channels.length = s.cfg.nCh ∧ s.Running ∧ s.inbox = .tick mixedSample :: [] ∧
    mixedSample.length = s.cfg.nCh ∧ mixedSample[7]? = some (.valid 0x7FFF) ∧ mixedSample[1]? = some .fault ∧
    (-32768 ≤ (0x7FFF : Fx).toInt + (s.chan 7).offset.toInt ∧ (0x7FFF : Fx).toInt + (s.chan 7).offset.toInt ≤ 32767) := by
  decide

/-- Two states that differ in channel 1, and two samples that differ in lane 2; channel 0 is the same in both. -/
theorem witness_TickKeepsChannelsIndependent :
    let s := offered (withOffset 0) [.tick mixedSample]
    let s' := offered (withOffset 31) [.tick (mixedSample.set 2 .fault)]
    s.Running ∧ s'.Running ∧ s.serial = s'.serial ∧ s.channels[0]? = s'.channels[0]? ∧
    mixedSample[0]? = (mixedSample.set 2 .fault)[0]? ∧ (∃ t, step s = .next t) ∧ (∃ t, step s' = .next t) := by
  have h := step_tick (s := offered (withOffset 0) [.tick mixedSample]) (by decide) (by decide) rfl (by decide)
  have h' := step_tick (s := offered (withOffset 31) [.tick (mixedSample.set 2 .fault)]) (by decide) (by decide) rfl
    (by decide)
  exact ⟨by decide, by decide, by decide, by decide, by decide, ⟨_, h⟩, ⟨_, h'⟩⟩

/-- Both ends of the window of R182. -/
theorem witness_ReadingsInTheWindowNeverOverflow : booted.OffsetsInRange ∧
    (-32768 - min booted.cfg.ofsMin 0 ≤ (0x8020 : Fx).toInt ∧ (0x8020 : Fx).toInt ≤ 32767 - max booted.cfg.ofsMax 0) ∧
    (-32768 - min booted.cfg.ofsMin 0 ≤ (0x7FDF : Fx).toInt ∧ (0x7FDF : Fx).toInt ≤ 32767 - max booted.cfg.ofsMax 0) := by
  decide

theorem witness_CommittedThresholdsActAtTheNextTick :
    let s := offered booted [.cmd (encode (.stWrthr 0 320 288)), .tick mixedSample]
    s.Shaped ∧ s.Running ∧ (0 : Byte).toNat < s.cfg.nCh ∧ validPair s.cfg (320 : Fx).toInt (288 : Fx).toInt = true ∧
    mixedSample.length = s.cfg.nCh ∧ mixedSample[(0 : Byte).toNat]? = some (.valid 320) ∧
    inrange ((320 : Fx).toInt + (s.chan (0 : Byte).toNat).offset.toInt) = true := by decide

theorem witness_FaultedChannelHoldsForEver :
    let s := offered booted [.tick mixedSample, .tick mixedSample]
    s.cfg.Wf ∧ s.channels.length = s.cfg.nCh ∧ s.Running ∧ 1 < s.cfg.nCh ∧
    (∀ sample ∈ [mixedSample, mixedSample], sample.length = s.cfg.nCh ∧ sample[1]? = some .fault) ∧
    s.inbox = [mixedSample, mixedSample].map Event.tick ++ [] ∧ [mixedSample, mixedSample] ≠ [] := by decide

theorem witness_ResetStateBeforeBoot : 0 < State.reset.cfg.nCh ∧ 7 < State.reset.cfg.nCh := by decide

/-- Running on an initialised store, and without power on one that is not. -/
theorem witness_ResetAndBootAsR221AndR222 :
    let s := offered booted [.reset]
    let s' := offered { uninitialised with power := .unpowered } [.reset]
    (s.cfg.Wf ∧ Mem.Wf s.nv ∧ s.phase = .run ∧ s.nv.read s.cfg.markerAddr = s.cfg.markerValue) ∧
    (s'.cfg.Wf ∧ Mem.Wf s'.nv ∧ s'.power = .unpowered ∧ s'.nv.read s'.cfg.markerAddr ≠ s'.cfg.markerValue) ∧
    (∀ k es', ([] : List Event) ≠ .powerLoss .boot k :: es') :=
  ⟨by decide, by decide, fun _ _ h => nomatch h⟩

theorem witness_FirstTickAfterBootStartsFromOff :
    let s := offered booted [.reset, .tick mixedSample]
    s.cfg.Wf ∧ Mem.Wf s.nv ∧ s.phase = .run ∧ s.inbox = .reset :: .tick mixedSample :: [] ∧
    mixedSample.length = s.cfg.nCh ∧ mixedSample[0]? = some (.valid 320) := by decide

theorem witness_EventsWaitWhileBooting :
    let s := offered State.reset [.cmd 0x1000000000000000]
    s.cfg.Wf ∧ s.power = .powered ∧ s.phase = .boot ∧ (∀ k es, s.inbox ≠ .powerLoss .boot k :: es) :=
  ⟨by decide, rfl, rfl, fun _ _ h => nomatch h⟩

/-- `k = W` and `k = W + 1` for a command; `k = W` for a boot; a tick cut after all its `ACT` events. -/
theorem witness_PowerLossLeavesTheFirstWrites :
    let op := Operation.cmd (encode (.stWrthr 0 320 288))
    let s := offered booted [.powerLoss op 2]
    (s.cfg.Wf ∧ s.power = .powered ∧ (s.phase = .boot ↔ op = .boot) ∧ 2 ≤ (operationWrites op s).length ∧
      (operationWrites op s).length < 3) ∧
    (State.reset.power = .powered ∧ State.reset.phase = .boot ∧ (operationWrites .boot State.reset).length = 17) ∧
    (mixedSample.length = s.cfg.nCh ∧ 8 ≤ s.cfg.nCh ∧ (operationWrites (.tick mixedSample 8) s).length = 0) := by
  decide +kernel

theorem witness_OnlyResetHappensWithoutPower :
    let s : State := { booted with power := .unpowered }
    s.cfg.Wf ∧ s.power = .unpowered ∧ s.inbox = [] ∧ (offered s [.reset]).inbox = .reset :: [] ∧
    (offered s [.cmd 0]).inbox = .cmd 0 :: [] ∧ Event.cmd 0 ≠ .reset := by decide

theorem witness_TornPairWriteIsLoadedTorn :
    let s := offered booted [.powerLoss (.cmd (encode (.stWrthr 7 320 288))) 1, .reset]
    s.Shaped ∧ s.Running ∧ isInit s.cfg s.nv = true ∧ (7 : Byte).toNat < s.cfg.nCh ∧
    validPair s.cfg (320 : Fx).toInt (288 : Fx).toInt = true ∧
    s.inbox = .powerLoss (.cmd (encode (.stWrthr 7 320 288))) 1 :: .reset :: [] ∧ 6 < s.cfg.nCh ∧ 6 ≠ (7 : Byte).toNat := by
  decide

/-- A loss after the first write of an `ADJ.OFF.INC` that commits. -/
theorem witness_AdjustStepCannotTearABlock :
    let i := Instr.adjOffInc 0
    let s := offered booted [.powerLoss (.cmd (encode i)) 1]
    s.Shaped ∧ s.Running ∧ s.Coherent ∧ (0 : Byte).toNat < s.cfg.nCh ∧
    i ∈ [Instr.adjOnInc 0, .adjOnDec 0, .adjOffInc 0, .adjOffDec 0] ∧ (∃ t, step s = .next t) ∧ (∃ u, exec i s = .next u) := by
  refine ⟨by decide, by decide, by decide, by decide, by decide,
    ⟨losePower (.cmd (encode (.adjOffInc 0))) 1 (offered booted []), ?_⟩, ⟨_, rfl⟩⟩
  have h := step_powerLoss (s := offered booted [.powerLoss (.cmd (encode (.adjOffInc 0))) 1]) (es := []) (by decide) rfl
    (by decide) rfl
  rw [h, powerLoss, show tickCutOk _ _ = none from rfl]
  exact if_pos (by decide)

/-- `k = 16 = 2N` and `k = 17 = 2N + 1`, and an initialised store. -/
theorem witness_FirstInitialisationIsRestartable :
    let s := offered State.reset [.powerLoss .boot 17, .reset]
    s.cfg.Wf ∧ Mem.Wf s.nv ∧ s.power = .powered ∧ s.phase = .boot ∧ isInit s.cfg s.nv = false ∧ 16 ≤ 2 * s.cfg.nCh ∧
    17 = 2 * s.cfg.nCh + 1 ∧ isInit Cfg.ref ({ booted with phase := .boot } : State).nv = true := by decide

/-- A loss after three writes: block 1 is torn. -/
theorem witness_InterruptedInitdefLeavesAPrefix :
    let s := offered (paired 320 288) [.powerLoss (.cmd (encode .stInitdef)) 3]
    s.Shaped ∧ s.Running ∧ isInit s.cfg s.nv = true ∧ 3 ≤ 2 * s.cfg.nCh ∧ (0 < 3 / 2 ∧ 1 = 3 / 2 ∧ 3 % 2 = 1 ∧ 3 / 2 < 7) ∧
    (2 = 4 / 2 ∧ 4 % 2 = 0) ∧ (∃ t, step s = .next t) := by
  refine ⟨by decide, by decide, by decide, by decide, by decide, by decide,
    ⟨losePower (.cmd (encode .stInitdef)) 3 (offered (paired 320 288) []), ?_⟩⟩
  have h := step_powerLoss (s := offered (paired 320 288) [.powerLoss (.cmd (encode .stInitdef)) 3]) (es := []) (by decide)
    rfl (by decide) rfl
  rw [h, powerLoss, show tickCutOk _ _ = none from rfl]
  exact if_pos (by decide)

theorem witness_IdleHoldsAllState : booted.cfg.Wf ∧ booted.Running ∧ booted.channels.length = booted.cfg.nCh ∧
    booted.inbox = [] ∧ 7 < booted.cfg.nCh := by decide

/-- A state that meets every invariant, and a step of it that writes registers and the store. -/
theorem witness_StepKeepsTheShape :
    let s := offered booted [.cmd (encode (.adjOnDec 0))]
    s.Shaped ∧ (s.power = .powered → s.OffsetsInRange) ∧ (s.Running → s.Coherent) ∧ s.Inv ∧ (∃ t, step s = .next t) := by
  have h := step_command (s := offered booted [.cmd (encode (.adjOnDec 0))]) (by decide) (by decide) rfl
    (show _ = some (.adjOnDec 0) by decide)
  exact ⟨by decide, fun _ => by decide, fun _ => by decide, ⟨by decide, fun _ => by decide, fun _ => by decide⟩, _, h⟩

/-- The same, with the premises on the state after: power is there and HCE runs. -/
theorem witness_StepKeepsOffsetsInRange :
    let s := offered (withOffset 31) [.cmd (encode (.adjOfsInc 1))]
    s.Shaped ∧ (s.power = .powered → s.OffsetsInRange) ∧ (∃ t, step s = .next t ∧ t.power = .powered) := by
  have h := step_command (s := offered (withOffset 31) [.cmd (encode (.adjOfsInc 1))]) (by decide) (by decide) rfl
    (show _ = some (.adjOfsInc 1) by decide)
  exact ⟨by decide, fun _ => by decide, _, h.trans (exec_eq _ _), rfl⟩

theorem witness_StepKeepsTheStoreCoherent :
    let s := offered booted [.cmd (encode (.stWrthr 0 320 288))]
    s.Shaped ∧ (s.Running → s.Coherent) ∧ (∃ t, step s = .next t ∧ t.Running) := by
  have h := step_command (s := offered booted [.cmd (encode (.stWrthr 0 320 288))]) (by decide) (by decide) rfl
    (show _ = some (.stWrthr 0 320 288) by decide)
  exact ⟨by decide, fun _ => by decide, _, h.trans (exec_eq _ _), rfl, rfl⟩

/-- Both bounds of a raw value, and one beyond each. -/
theorem witness_TemperatureOperandsOfR92 : (-32768 ≤ (-32768 : Int) ∧ (-32768 : Int) ≤ 32767) ∧
    (-32768 ≤ (32767 : Int) ∧ (32767 : Int) ≤ 32767) ∧ (-32769 : Int) < -32768 ∧ (32767 : Int) < 32768 := by decide

theorem witness_ScriptLinesExpandAsR91AndR93Say : 7 < Cfg.ref.nCh ∧ 0 < Cfg.ref.nCh ∧ 0 ≠ 7 := by decide

end Sys2Proof.Tests
end

section
/-! PROOFS. What every step keeps (spec/00_scope.md R7 to R9): the shape of the record, the constants, the order of the waiting
events and of the response port; and the two rules that say which step is taken. -/

namespace Sys2Proof.Machine

/-! ## The shape of the record -/

/-- The writes of any operation in progress lie in the memory (R57). -/
theorem operationWrites_bounded {s : State} (hc : s.cfg.Wf) (op : Operation) :
    ∀ w ∈ operationWrites op s, ∀ a, w.touches a = true → a < s.cfg.nvSize := by
  cases op with
  | idle | tick => intro w hw; cases hw
  | boot => exact bootWrites_bounded hc
  | cmd word =>
    simp only [operationWrites, commandWrites]
    split
    · intro w hw; cases hw
    · exact transaction_bounded hc _

/-- A state reached with the same constants and `N` records, by primitive writes inside the memory, is in shape: the one way in
which the NV memory ever changes (R54, R55). -/
theorem shaped_of_applyAll {s t : State} {ws : List NvWrite} (hs : s.Shaped) (hcfg : t.cfg = s.cfg)
    (hlen : t.channels.length = s.cfg.nCh) (hnv : t.nv = s.nv.applyAll ws)
    (hws : ∀ w ∈ ws, ∀ a, w.touches a = true → a < s.cfg.nvSize) : t.Shaped := by
  obtain ⟨hc, -, hm, hb⟩ := hs
  rw [State.Shaped, hcfg, hnv]
  exact ⟨hc, hlen, wf_applyAll hm ws, bounded_applyAll hb hws⟩

/-- The case of an event that makes no NV access. -/
theorem shaped_of_nv_eq {s t : State} (hs : s.Shaped) (hcfg : t.cfg = s.cfg) (hlen : t.channels.length = s.cfg.nCh)
    (hnv : t.nv = s.nv) : t.Shaped :=
  shaped_of_applyAll (ws := []) hs hcfg hlen hnv (by simp)

@[simp] theorem length_tickChannels (serial : Nat) (sample : List Lane) (chs : List Channel) :
    (tickChannels serial sample chs).length = chs.length := List.length_mapIdx

/-- Every kind of step keeps the shape. -/
theorem StepCase.shaped {s t : State} (hs : s.Shaped) (h : StepCase s t) : t.Shaped := by
  have ⟨hc, hlen, _, _⟩ := hs
  cases h with
  | idle => exact hs
  | reset es => exact shaped_of_nv_eq hs rfl (by simp) rfl
  | tick sample es => exact shaped_of_nv_eq hs rfl (by simp [hlen]) rfl
  | illegal w es => exact shaped_of_nv_eq hs rfl hlen rfl
  | command w i es =>
    exact shaped_of_applyAll hs rfl (by simp [length_transaction, hlen]) rfl
      (transaction_bounded (s := s.withInbox es) hc i)
  | powerLoss op k es =>
    exact shaped_of_applyAll hs rfl (by simp) rfl fun w hw =>
      operationWrites_bounded (s := s.withInbox es) hc op w (List.mem_of_mem_take hw)
  | boot => exact shaped_of_applyAll hs rfl ((length_boot s).trans hlen) rfl (bootWrites_bounded hc)

/-! ## The constants, the waiting events and the response port -/

/-- No kind of step writes the constants (R8). -/
theorem StepCase.cfg_eq {s t : State} (h : StepCase s t) : t.cfg = s.cfg := by
  cases h <;> rfl

/-- No kind of step takes an event other than the first (R7). -/
theorem StepCase.inbox_eq_or_cons {s t : State} (h : StepCase s t) : t.inbox = s.inbox ∨ ∃ e, s.inbox = e :: t.inbox := by
  cases h with
  | idle | boot => exact .inl rfl
  | reset es h | tick _ es h | illegal _ es h | command _ _ es h | powerLoss _ _ es h => exact .inr ⟨_, h⟩

/-- A command word taken in `RUN` is answered by one word, and no other step answers (R35, R234). -/
theorem StepCase.responses_eq {s t : State} (h : StepCase s t) :
    (∃ w es, s.Running ∧ s.inbox = .cmd w :: es ∧ t.inbox = es ∧ ∃ r, t.responses = s.responses ++ [r]) ∨
      ((∀ w es, s.Running → s.inbox ≠ .cmd w :: es) ∧ t.responses = s.responses) := by
  cases h with
  | illegal w es h hr | command w _ es h hr => exact .inl ⟨w, es, hr, h, rfl, _, rfl⟩
  | idle h | reset es h | tick _ es h | powerLoss _ _ es h => exact .inr ⟨by simp [h], rfl⟩
  | boot _ hph => exact .inr ⟨fun _ _ hr => (nomatch hph.symm.trans hr.2), rfl⟩

end Sys2Proof.Machine

namespace Sys2Proof

open Sys2Proof.Machine

/-! ## The obligations -/

/-- Settles O53: each kind of step changes the NV memory, if at all, by primitive writes inside it, and keeps `N` records. -/
theorem stepKeepsTheShape : Obligations.StepKeepsTheShape := by
  unfold Obligations.StepKeepsTheShape
  intro s t hs h
  exact (step_case h).2.shaped hs

/-- Settles O10, by the kinds of step. -/
theorem stepTakesAtMostOneEvent : Obligations.StepTakesAtMostOneEvent := by
  unfold Obligations.StepTakesAtMostOneEvent
  intro s t h
  obtain ⟨-, hcase⟩ := step_case h
  exact ⟨hcase.cfg_eq, hcase.inbox_eq_or_cons, hcase.responses_eq⟩

/-- Settles O7: `step_command` at the state without the event taken. -/
theorem stepRunsTheDecodedCommand : Obligations.StepRunsTheDecodedCommand := by
  unfold Obligations.StepRunsTheDecodedCommand
  intro s w es i hc hr h hd
  exact step_command hc hr h hd

/-- Settles O11: `step` tests the constants before it looks at power, phase or events. -/
theorem noStepWithoutAConfiguration : Obligations.NoStepWithoutAConfiguration := by
  unfold Obligations.NoStepWithoutAConfiguration
  intro s hc
  exact if_neg hc

end Sys2Proof
end

section
/-! PROOFS. The state (spec/10_state.md): which registers and NV bytes a command may write (R21, R26, R165), what boot leaves alone
(R28, R222), the bounds of the offsets (R24), the coherence of working copies and store (R27, R137), and the state before boot (R38). -/

namespace Sys2Proof.Machine

/-! ## Registers that a rewriting of the register file leaves alone

`f` reads off a channel the part of it that the rewriting does not change. The three lemmas need no bound on the channel: a record
beyond the register file stays absent. -/

section unchanged
variable {α : Type} (f : Channel → α) {s t : State}

theorem unchanged_of_set {i : Nat} {c : Channel} (h : t.channels = s.channels.set i c) (hf : f c = f (s.chan i)) (j : Nat) :
    f (t.chan j) = f (s.chan j) := by
  by_cases hj : j = i
  · subst hj
    rcases Nat.lt_or_ge j s.channels.length with hlt | hle
    · rw [chan_of_set h hlt, if_pos rfl, hf]
    · rw [chan_of_le hle, chan_of_le (by simpa [h] using hle)]
  · rw [chan_of_set_ne h hj]

theorem unchanged_of_map {g : Channel → Channel} (h : t.channels = s.channels.map g) (hf : ∀ c, f (g c) = f c) (j : Nat) :
    f (t.chan j) = f (s.chan j) := by
  rcases Nat.lt_or_ge j s.channels.length with hlt | hle
  · rw [chan_of_map h hlt, hf]
  · rw [chan_of_le hle, chan_of_le (by simpa [h] using hle)]

/-- Boot writes the working pairs and no other register (R222). -/
theorem unchanged_of_boot (s : State) (hf : ∀ c on off, f (Channel.withPair c on off) = f c) (j : Nat) :
    f ((boot s).chan j) = f (s.chan j) := by
  rcases Nat.lt_or_ge j s.channels.length with hlt | hle
  · rw [chan_boot hlt]
    split <;> exact hf _ _ _
  · rw [chan_of_le hle, chan_of_le (by rwa [length_boot])]

end unchanged

/-- The registers of a channel that only a `TICK` or a `RESET` writes (R22, R23, R26). -/
def Channel.acquired (c : Channel) : Fx × Bool × Act := (c.reading, c.rdValid, c.act)

theorem acquired_eq_iff {c d : Channel} :
    c.acquired = d.acquired ↔ c.reading = d.reading ∧ c.rdValid = d.rdValid ∧ c.act = d.act := by
  simp [Channel.acquired]

/-- A step of a channel writes `reading`, `rdValid` and `act` only (R182, R183). -/
theorem stepChannel_keeps (serial i : Nat) (lane : Lane) (c : Channel) :
    (stepChannel serial i lane c).offset = c.offset ∧ (stepChannel serial i lane c).coolOn = c.coolOn ∧
    (stepChannel serial i lane c).coolOff = c.coolOff := by
  cases lane <;> exact ⟨rfl, rfl, rfl⟩

/-! ## What a completed command leaves alone -/

section command
variable {i : Instr} {s : State} {T : Transaction}

/-- No command writes `reading`, `rdValid` or `act` (R26, R165). -/
theorem TransactionCase.acquired_eq (h : TransactionCase i s T) (j : Nat) :
    ((s.complete T).chan j).reading = (s.chan j).reading ∧ ((s.complete T).chan j).rdValid = (s.chan j).rdValid ∧
    ((s.complete T).chan j).act = (s.chan j).act := by
  have key : ((s.complete T).chan j).acquired = (s.chan j).acquired := by
    cases h with
    | reply | overflow => rfl
    | initdef => exact unchanged_of_map Channel.acquired rfl (fun _ => by rfl) j
    | pair | offset => exact unchanged_of_set Channel.acquired rfl (by rfl) j
  exact acquired_eq_iff.1 key

/-- A command leaves an offset alone, or it is an `ADJ.OFS.*` of that channel and the new offset is in its bounds (R24, R159). -/
theorem TransactionCase.offset_eq_or (h : TransactionCase i s T) (j : Nat) :
    ((s.complete T).chan j).offset = (s.chan j).offset ∨
    ∃ ch x, offsetChannel? i = some ch ∧ ch.toNat = j ∧ (s.cfg.ofsMin ≤ x ∧ x ≤ s.cfg.ofsMax) ∧
      ((s.complete T).chan j).offset = zext16 x := by
  cases h with
  | reply | overflow => exact .inl rfl
  | initdef => exact .inl (unchanged_of_map Channel.offset rfl (fun _ => by rfl) j)
  | pair => exact .inl (unchanged_of_set Channel.offset rfl (by rfl) j)
  | offset ch x h hch hx =>
    by_cases hj : ch.toNat = j
    · rcases Nat.lt_or_ge j s.channels.length with hlt | hle
      · refine .inr ⟨ch, x, h, hj, hx, ?_⟩
        rw [chan_of_set (s := s) rfl (hj ▸ hlt), if_pos hj.symm]
      · exact .inl (by rw [chan_of_le hle, chan_of_le (by simpa using hle)])
    · exact .inl (by rw [chan_of_set_ne (s := s) rfl (Ne.symm hj)])

/-- But for `ST.INITDEF`, a command leaves the working pair of every channel alone that is not the one it names (R21). -/
theorem TransactionCase.pair_eq (h : TransactionCase i s T) (hi : i ≠ .stInitdef) {j : Nat}
    (hj : ∀ ch, thresholdChannel? i = some ch → ch.toNat ≠ j) :
    ((s.complete T).chan j).coolOn = (s.chan j).coolOn ∧ ((s.complete T).chan j).coolOff = (s.chan j).coolOff := by
  cases h with
  | reply | overflow => exact ⟨rfl, rfl⟩
  | initdef h => exact absurd h hi
  | pair ch on off v1 v0 h =>
    rw [chan_of_set_ne (s := s) rfl (hj ch h).symm]
    exact ⟨rfl, rfl⟩
  | offset =>
    exact ⟨unchanged_of_set Channel.coolOn rfl (by rfl) j, unchanged_of_set Channel.coolOff rfl (by rfl) j⟩

/-- But for `ST.INITDEF`, a command leaves every byte alone outside the block of the channel it names (R63). -/
theorem TransactionCase.read_nv_eq (h : TransactionCase i s T) (hi : i ≠ .stInitdef) {a : Nat}
    (ha : ∀ ch, thresholdChannel? i = some ch → ¬ inBlock s.cfg ch.toNat a) :
    (s.complete T).nv.read a = s.nv.read a := by
  cases h with
  | reply | overflow | offset => rfl
  | initdef h => exact absurd h hi
  | pair ch on off v1 v0 h => exact read_applyAll_other _ (pairWrites_not_touches (ha ch h))

end command

/-! ## The bounds of the offsets (R24) -/

/-- The bounds of R24, by channel number. -/
theorem offsetsInRange_iff {s : State} : s.OffsetsInRange ↔
    ∀ j < s.channels.length, s.cfg.ofsMin ≤ sext16 (s.chan j).offset ∧ sext16 (s.chan j).offset ≤ s.cfg.ofsMax := by
  constructor
  · intro h j hj
    rw [chan_eq_getElem hj]
    exact h _ (List.getElem_mem hj)
  · intro h c hc
    obtain ⟨j, hj, rfl⟩ := List.getElem_of_mem hc
    rw [← chan_eq_getElem hj]
    exact h j hj

/-- A step that leaves every offset alone keeps the bounds. -/
theorem offsetsInRange_of_offset_eq {s t : State} (h : s.OffsetsInRange) (hcfg : t.cfg = s.cfg)
    (hlen : t.channels.length = s.channels.length)
    (ho : ∀ j < s.channels.length, (t.chan j).offset = (s.chan j).offset) : t.OffsetsInRange := by
  rw [offsetsInRange_iff] at h ⊢
  intro j hj
  rw [hlen] at hj
  rw [hcfg, ho j hj]
  exact h j hj

/-- After `RESET` every offset is at `OFFSET_INIT`, which is in the bounds (R9, R221). -/
theorem offsetsInRange_resetRegisters {s : State} (hc : s.cfg.Wf) : (resetRegisters s).OffsetsInRange := by
  rw [offsetsInRange_iff]
  intro j hj
  have hn : j < s.cfg.nCh := by simpa using hj
  rw [chan_resetRegisters hn]
  exact (wf_offsetInit hc).2 _ (List.mem_of_getElem? (toInt_offsetInit hc hn).symm)

theorem offsetsInRange_tick {s : State} (h : s.OffsetsInRange) (sample : List Lane) : (tick sample s).OffsetsInRange := by
  refine offsetsInRange_of_offset_eq h rfl (by simp) fun j hj => ?_
  rw [chan_tick sample hj]
  exact (stepChannel_keeps _ _ _ _).1

theorem offsetsInRange_boot {s : State} (h : s.OffsetsInRange) : (boot s).OffsetsInRange :=
  offsetsInRange_of_offset_eq h rfl (length_boot s) fun j _ =>
    unchanged_of_boot Channel.offset s (fun _ _ _ => rfl) j

/-- A command keeps the bounds: an offset that it commits has passed the test of R159. -/
theorem offsetsInRange_command {s : State} (hc : s.cfg.Wf) (h : s.OffsetsInRange) (i : Instr) :
    (s.complete (transaction i s)).OffsetsInRange := by
  rw [offsetsInRange_iff] at h ⊢
  intro j hj
  rcases (transaction_case i s).offset_eq_or j with he | ⟨_, x, _, _, hx, he⟩
  · rw [he]
    exact h j (by simpa [length_transaction] using hj)
  · have hb := wf_offsetBounds hc
    rw [he, sext16_zext16 (by omega)]
    exact hx

/-- Every kind of step that ends with power keeps the bounds. -/
theorem StepCase.offsetsInRange {s t : State} (hc : s.cfg.Wf) (hs : s.power = .powered → s.OffsetsInRange)
    (h : StepCase s t) (hp : t.power = .powered) : t.OffsetsInRange := by
  cases h with
  | idle => exact hs hp
  | reset es => exact offsetsInRange_resetRegisters (s := s.withInbox es) hc
  | tick sample es => exact offsetsInRange_tick (s := s.withInbox es) (hs hp) sample
  | illegal => exact hs hp
  | command w i es => exact offsetsInRange_command (s := s.withInbox es) hc (hs hp) i
  | powerLoss => cases hp
  | boot => exact offsetsInRange_boot (hs hp)

/-! ## Store coherence (R27, R137) -/

/-- An event that leaves the NV memory and every working pair alone keeps the store coherent. -/
theorem coherent_of_pair_eq {s t : State} (h : s.Coherent) (hcfg : t.cfg = s.cfg) (hnv : t.nv = s.nv)
    (hp : ∀ j < s.cfg.nCh, (t.chan j).coolOn = (s.chan j).coolOn ∧ (t.chan j).coolOff = (s.chan j).coolOff) :
    t.Coherent := by
  rw [State.Coherent, hcfg, hnv]
  refine ⟨h.1, fun j hj => ?_⟩
  rw [(hp j hj).1, (hp j hj).2]
  exact h.2 j hj

/-- Boot loads every working pair from its block, or writes both from the defaults (R222): whatever the store held. -/
theorem coherent_boot {s : State} (hs : s.Shaped) : (boot s).Coherent := by
  obtain ⟨hc, hlen, hm, -⟩ := hs
  cases hi : isInit s.cfg s.nv with
  | true =>
    rw [State.Coherent, boot_nv_of_isInit hi]
    refine ⟨hi, fun j hj => ?_⟩
    rw [chan_boot (by rwa [hlen]), if_pos hi]
    exact ⟨rfl, rfl⟩
  | false =>
    obtain ⟨hinit, hpairs⟩ := initWrites_spec hc hm
    rw [State.Coherent, boot_nv_of_not_isInit hi]
    refine ⟨hinit, fun j hj => ?_⟩
    rw [chan_boot (by rwa [hlen]), if_neg (by simp [hi])]
    exact ⟨(hpairs j hj).1.symm, (hpairs j hj).2.symm⟩

/-- `ST.INITDEF` writes every working pair and every block from the defaults, and the marker (R133). -/
theorem coherent_initdef {s : State} (hs : s.Shaped) : (s.complete (stInitdef s)).Coherent := by
  obtain ⟨hc, hlen, hm, -⟩ := hs
  obtain ⟨hinit, hpairs⟩ := initWrites_spec hc hm
  refine ⟨hinit, fun j hj => ?_⟩
  rw [chan_of_map (s := s) rfl (by rwa [hlen])]
  exact ⟨(hpairs j hj).1.symm, (hpairs j hj).2.symm⟩

/-- A committed pair goes to the working copies and to the fields of its block alike (R136, R154). -/
theorem coherent_commitPair {s : State} (hs : s.Shaped) (h : s.Coherent) {i : Nat} (hi : i < s.cfg.nCh) (on off v1 v0 : Fx) :
    (s.complete (s.commitPair i on off v1 v0)).Coherent := by
  obtain ⟨hc, hlen, hm, -⟩ := hs
  refine ⟨(isInit_pairWrites hc s.nv hi on off 2).trans h.1, fun j hj => ?_⟩
  rw [chan_of_set (s := s) rfl (by rwa [hlen])]
  by_cases hji : j = i
  · subst hji
    obtain ⟨hon, hoff⟩ := stored_pairWrites_same s.cfg hm j on off
    rw [if_pos rfl]
    exact ⟨hon.symm, hoff.symm⟩
  · obtain ⟨hon, hoff⟩ := stored_pairWrites_other hc s.nv on off 2 hji
    rw [if_neg hji]
    exact ⟨(h.2 j hj).1.trans hon.symm, (h.2 j hj).2.trans hoff.symm⟩

/-- A command keeps the store coherent: it writes thresholds and NV bytes together or not at all. -/
theorem coherent_command {s : State} (hs : s.Shaped) (h : s.Coherent) (i : Instr) :
    (s.complete (transaction i s)).Coherent := by
  have hcase := transaction_case i s
  generalize transaction i s = T at hcase
  cases hcase with
  | reply | overflow => exact h
  | initdef => exact coherent_initdef hs
  | pair ch on off v1 v0 _ hch => exact coherent_commitPair hs h hch on off v1 v0
  | offset =>
    exact coherent_of_pair_eq h rfl rfl fun j _ =>
      ⟨unchanged_of_set Channel.coolOn rfl (by rfl) j, unchanged_of_set Channel.coolOff rfl (by rfl) j⟩

theorem coherent_tick {s : State} (hs : s.Shaped) (h : s.Coherent) (sample : List Lane) : (tick sample s).Coherent := by
  refine coherent_of_pair_eq h rfl rfl fun j hj => ?_
  rw [chan_tick sample (by rwa [hs.2.1])]
  exact (stepChannel_keeps _ _ _ _).2

/-- Every kind of step that ends in `RUN` leaves the store coherent. -/
theorem StepCase.coherent {s t : State} (hs : s.Shaped) (hcoh : s.Running → s.Coherent) (h : StepCase s t) (hr : t.Running) :
    t.Coherent := by
  cases h with
  | idle => exact hcoh hr
  | reset => exact nomatch hr.2
  | tick sample es _ hrs => exact coherent_tick (s := s.withInbox es) hs (hcoh hrs) sample
  | illegal w es _ hrs => exact hcoh hrs
  | command w i es _ hrs => exact coherent_command (s := s.withInbox es) hs (hcoh hrs) i
  | powerLoss => exact nomatch hr.1
  | boot => exact coherent_boot hs

end Sys2Proof.Machine

namespace Sys2Proof

open Sys2Proof.Machine

/-! ## The obligations -/

/-- Settles O54: `RESET` sets offsets in the bounds, `ADJ.OFS.*` tests them, and no other kind of step writes one. -/
theorem stepKeepsOffsetsInRange : Obligations.StepKeepsOffsetsInRange := by
  unfold Obligations.StepKeepsOffsetsInRange
  intro s t hs ho h hp
  exact (step_case h).2.offsetsInRange hs.1 ho hp

/-- Settles O55: boot establishes coherence from any store, and every later writer writes working copy and field alike. -/
theorem stepKeepsTheStoreCoherent : Obligations.StepKeepsTheStoreCoherent := by
  unfold Obligations.StepKeepsTheStoreCoherent
  intro s t hs hcoh h hr
  exact (step_case h).2.coherent hs hcoh hr

/-- Settles O14, by the five kinds of transaction. -/
theorem commandsWriteOnlyWhatTheTableSays : Obligations.CommandsWriteOnlyWhatTheTableSays := by
  unfold Obligations.CommandsWriteOnlyWhatTheTableSays
  intro i s t h
  rw [exec_eq] at h
  cases h
  have hcase := transaction_case i s
  refine ⟨rfl, rfl, rfl, rfl, rfl, length_transaction i s, hcase.acquired_eq, fun j hj => ?_,
    fun hi j hj => hcase.pair_eq hi hj, fun hi a ha => hcase.read_nv_eq hi ha⟩
  rcases hcase.offset_eq_or j with he | ⟨ch, _, hch, hchj, _⟩
  · exact he
  · exact absurd hchj (hj ch hch)

/-- Settles O45: the step is the boot sequence, which takes no event and writes only the working pairs and the store. -/
theorem eventsWaitWhileBooting : Obligations.EventsWaitWhileBooting := by
  unfold Obligations.EventsWaitWhileBooting
  intro s hc hp hph h
  refine ⟨boot s, step_boot hc hp hph h, rfl, rfl, rfl, rfl, fun j => ?_⟩
  obtain ⟨hreading, hvalid, hact⟩ := acquired_eq_iff.1 (unchanged_of_boot Channel.acquired s (fun _ _ _ => rfl) j)
  exact ⟨hact, hreading, hvalid, unchanged_of_boot Channel.offset s (fun _ _ _ => rfl) j⟩

/-- Settles O42: `State.reset` is one closed state of eight channels, so its values are computed. -/
theorem resetStateBeforeBoot : Obligations.ResetStateBeforeBoot := by
  unfold Obligations.ResetStateBeforeBoot
  exact ⟨by decide, rfl, rfl, rfl, rfl, by decide⟩

/-- Settles O56: shape and offsets are computed; in `BOOT` nothing is claimed of the store. -/
theorem resetMeetsTheInvariant : Obligations.ResetMeetsTheInvariant := by
  unfold Obligations.ResetMeetsTheInvariant
  have hshape : State.reset.Shaped := by decide
  have hofs : State.reset.OffsetsInRange := by decide
  exact ⟨hshape, fun _ => hofs, fun hr => nomatch hr.2⟩

end Sys2Proof
end

section
/-! PROOFS. The NV memory (spec/20_memory.md): how many writes a command makes (R61, R63), what reads return (R52 to R55), the one
form of the memory (log entry 3), the layout of the store (R56, R57), and what a power loss leaves (R60, R61, R212). -/

namespace Sys2Proof

/-! ## A word that encodes a command decodes to it (R81 to R85) -/

/-- Rows of the table differ in their opcode (R84), so the row that a word selects is the one that its decoding uses. -/
theorem decode_of_selects {r : OpRow} (hr : r ∈ opTable) {w : Word64} (h : r.selects w = true) :
    decode w = some (r.build w) := by
  have hop : (opTable.map OpRow.op).Nodup := by decide
  cases hf : opTable.find? (·.selects w) with
  | none => exact absurd h (List.find?_eq_none.1 hf r hr)
  | some q =>
    have hq : q.selects w = true := List.find?_some (p := (OpRow.selects · w)) hf
    have hqr : q = r := List.inj_on_of_nodup_map hop (List.mem_of_find?_eq_some hf) hr
      (((selects_iff q w).1 hq).1.symm.trans ((selects_iff r w).1 h).1)
    simp [decode, hf, hqr]

theorem encodedRow (i : Instr) : Laws.EncodedRow.Statement i := by
  cases i with
  | fadd a b => exact Laws.EncodedRow.fadd a b
  | fcmp a b => exact Laws.EncodedRow.fcmp a b
  | fclamp v lo hi => exact Laws.EncodedRow.fclamp v lo hi
  | stIsinit => exact Laws.EncodedRow.stIsinit
  | stInitdef => exact Laws.EncodedRow.stInitdef
  | stRdthr ch => exact Laws.EncodedRow.stRdthr ch
  | stWrthr ch on off => exact Laws.EncodedRow.stWrthr ch on off
  | adjOnInc ch => exact Laws.EncodedRow.adjOnInc ch
  | adjOnDec ch => exact Laws.EncodedRow.adjOnDec ch
  | adjOffInc ch => exact Laws.EncodedRow.adjOffInc ch
  | adjOffDec ch => exact Laws.EncodedRow.adjOffDec ch
  | adjOfsInc ch => exact Laws.EncodedRow.adjOfsInc ch
  | adjOfsDec ch => exact Laws.EncodedRow.adjOfsDec ch
  | getReading ch => exact Laws.EncodedRow.getReading ch
  | getCoolon ch => exact Laws.EncodedRow.getCoolon ch
  | getCooloff ch => exact Laws.EncodedRow.getCooloff ch
  | getOffset ch => exact Laws.EncodedRow.getOffset ch

/-- The row with the opcode of an encoded command builds that command from it. -/
theorem build_encode {r : OpRow} (hr : r ∈ opTable) {i : Instr} (h : opField (encode i) = r.op) :
    r.build (encode i) = i := by
  have key : ∀ q ∈ opTable, opField (encode i) = q.op → q.build (encode i) = i := by
    cases i <;> simp [opTable, fixedPointRows, storeRows, adjustRows, accessorRows, encode]
  exact key r hr h

@[simp] theorem decode_encode (i : Instr) : decode (encode i) = some i := by
  obtain ⟨r, hr, hs, hop, -⟩ := encodedRow i
  rw [decode_of_selects hr hs, build_encode hr hop]

end Sys2Proof

namespace Sys2Proof.Machine

/-! ## How many NV writes a command makes (R61, R63) -/

theorem commandWrites_encode (i : Instr) (s : State) : commandWrites (encode i) s = (transaction i s).writes := by
  simp [commandWrites]

/-- A command that neither initialises the store nor commits a pair makes no NV write. -/
theorem transaction_writes_eq_nil {i : Instr} (s : State) (hi : i ≠ .stInitdef) (ht : thresholdChannel? i = none) :
    (transaction i s).writes = [] := by
  have hcase := transaction_case i s
  generalize transaction i s = T at hcase
  cases hcase with
  | reply | overflow | offset => rfl
  | initdef h => exact absurd h hi
  | pair ch _ _ _ _ h => exact nomatch ht.symm.trans h

/-- A rule that commits a pair when `p` holds and otherwise replies makes two writes exactly when it is reached (R85) and
commits. -/
theorem onChannel_writes_length (s : State) (ch : Byte) (p : Prop) [Decidable p] {on off v1 v0 : Fx} {fl : Byte} {w1 w0 : Fx}
    {st : Status} {rule : Nat → Transaction}
    (hrule : rule ch.toNat = if p then s.commitPair ch.toNat on off v1 v0 else s.reply st fl w1 w0) :
    (s.onChannel ch rule).writes.length = if ch.toNat < s.cfg.nCh ∧ p then 2 else 0 := by
  rcases Nat.lt_or_ge ch.toNat s.cfg.nCh with hc | hc
  · rw [onChannel_of_lt hc, hrule]
    by_cases hp : p <;> simp [hc, hp]
  · rw [onChannel_of_le hc, if_neg (by omega)]
    rfl

theorem stWrthr_writes_length (ch : Byte) (on off : Fx) (s : State) :
    (stWrthr ch on off s).writes.length =
      if ch.toNat < s.cfg.nCh ∧ validPair s.cfg on.toInt off.toInt = true then 2 else 0 :=
  onChannel_writes_length s ch _ rfl

theorem adjustThr_writes_length (ch : Byte) (side : Side) (delta : Int) (s : State) :
    (adjustThr ch side delta s).writes.length =
      if ch.toNat < s.cfg.nCh ∧
        validPair s.cfg (candOn side delta (s.chan ch.toNat)) (candOff side delta (s.chan ch.toNat)) = true then 2 else 0 :=
  onChannel_writes_length s ch _ rfl

/-- Of the checks of R208, a command that commits a pair meets the channel check and the pair check. -/
theorem pairStatus_ok_iff (n : Nat) (ch : Byte) (v : Bool) :
    (if decide (ch.toNat < n) = false then 0x04#8 else if v = true then 0x00#8 else 0x02#8) = 0x00#8 ↔
      ch.toNat < n ∧ v = true := by
  by_cases hn : ch.toNat < n <;> cases v <;> simp [hn]

/-- A command that commits a pair makes two NV writes when its status is `OK`, and none otherwise. -/
theorem transaction_writes_length_of_threshold {i : Instr} {ch : Byte} (s : State) (h : thresholdChannel? i = some ch) :
    (transaction i s).writes.length = if expectedStatus s (some i) = 0x00 then 2 else 0 := by
  cases i with
  | stWrthr ch on off => exact (stWrthr_writes_length ch on off s).trans (if_congr (pairStatus_ok_iff ..).symm rfl rfl)
  | adjOnInc ch => exact (adjustThr_writes_length ch .on _ s).trans (if_congr (pairStatus_ok_iff ..).symm rfl rfl)
  | adjOnDec ch => exact (adjustThr_writes_length ch .on _ s).trans (if_congr (pairStatus_ok_iff ..).symm rfl rfl)
  | adjOffInc ch => exact (adjustThr_writes_length ch .off _ s).trans (if_congr (pairStatus_ok_iff ..).symm rfl rfl)
  | adjOffDec ch => exact (adjustThr_writes_length ch .off _ s).trans (if_congr (pairStatus_ok_iff ..).symm rfl rfl)
  | fadd | fcmp | fclamp | stIsinit | stInitdef | stRdthr | adjOfsInc | adjOfsDec | getReading | getCoolon | getCooloff
  | getOffset => cases h

/-- The number of NV writes of every command. -/
theorem transaction_writes_length (i : Instr) (s : State) :
    (transaction i s).writes.length =
      if i = .stInitdef then 2 * s.cfg.nCh + 1
      else if (thresholdChannel? i).isSome ∧ expectedStatus s (some i) = 0x00 then 2 else 0 := by
  by_cases hi : i = .stInitdef
  · subst hi
    exact initWrites_length s.cfg
  · rw [if_neg hi]
    cases ht : thresholdChannel? i with
    | none => simp [transaction_writes_eq_nil s hi ht]
    | some ch => simp [transaction_writes_length_of_threshold s ht]

/-! ## Fields as numbers (R53, R55) -/

theorem toNat_readField (m : Mem) (a : Nat) :
    (m.readField a).toNat = (m.read a).toNat + 256 * (m.read (a + 1)).toNat := by
  rw [Mem.readField, BitVec.toNat_append, ← Nat.shiftLeft_add_eq_or_of_lt (m.read a).isLt, Nat.shiftLeft_eq]
  omega

theorem toNat_read_writeField {m : Mem} (hm : Mem.Wf m) (a b : Nat) (v : Fx) :
    ((m.writeField a v).read b).toNat =
      if b = a then v.toNat % 256 else if b = a + 1 then v.toNat / 256 else (m.read b).toNat := by
  have hv := v.isLt
  rw [read_writeField hm]
  split
  · simp
  · split
    · rw [BitVec.extractLsb'_toNat, Nat.shiftRight_eq_div_pow]
      omega
    · rfl

/-! ## Whole blocks, padding included (R56, R57) -/

theorem wholeBlock_end (c : Cfg) {i : Nat} (h : i < c.nCh) :
    blockAddr c i + c.blockSize ≤ c.blockBase + c.nCh * c.blockSize := blockAddr_step c h

theorem wholeBlock_bounded {c : Cfg} (hc : c.Wf) {i a : Nat} (h : i < c.nCh) (ha : a < blockAddr c i + c.blockSize) :
    a < c.nvSize := by
  have := wholeBlock_end c h
  have := wf_fits hc
  omega

theorem marker_outside_wholeBlock {c : Cfg} (hc : c.Wf) {i a : Nat} (h : i < c.nCh) (hl : blockAddr c i ≤ a)
    (ha : a < blockAddr c i + c.blockSize) : a ≠ c.markerAddr := by
  have := wholeBlock_end c h
  have : c.blockBase ≤ blockAddr c i := Nat.le_add_right _ _
  have := wf_markerOutside hc
  omega

theorem wholeBlocks_disjoint (c : Cfg) {i j : Nat} (h : j ≠ i) :
    blockAddr c i + c.blockSize ≤ blockAddr c j ∨ blockAddr c j + c.blockSize ≤ blockAddr c i := by
  rcases Nat.lt_or_gt_of_ne h with h | h
  · exact .inr (blockAddr_step c h)
  · exact .inl (blockAddr_step c h)

/-! ## Power loss (R61, R186, R212) -/

/-- No power loss but one in a `TICK` adds an `ACT` event. -/
theorem operationActs_of_not_tick {op : Operation} (s : State) (h : ∀ sample n, op ≠ .tick sample n) :
    operationActs op s = [] := by
  cases op with
  | tick sample n => exact absurd rfl (h sample n)
  | idle | boot | cmd => rfl

/-- The test of the sample vector and of the count of `ACT` events passes when both are at most those of a `TICK` (R34, R186). -/
theorem tickCutOk_eq_none {op : Operation} {s : State}
    (h : ∀ sample acts, op = .tick sample acts → sample.length = s.cfg.nCh ∧ acts ≤ s.cfg.nCh) : tickCutOk op s = none := by
  cases op with
  | tick sample acts =>
    obtain ⟨hlen, hacts⟩ := h sample acts rfl
    simp [tickCutOk, hlen, hacts]
  | idle | boot | cmd => rfl

theorem powerLoss_eq {op : Operation} {k : Nat} {s : State} (ht : tickCutOk op s = none) :
    powerLoss op k s =
      if k ≤ (operationWrites op s).length then .next (losePower op k s) else .refused .powerLossCount := by
  simp [powerLoss, ht]

/-- A `TICK` that is cut after `n` of its `ACT` events has emitted the first `n` of those of the whole `TICK` (R186). -/
theorem trace_losePower_tick (s : State) (sample : List Lane) (n k : Nat) :
    (losePower (.tick sample n) k s).trace = (tick sample s).trace.take (s.trace.length + n) := by
  simp [operationActs, List.take_length_add_append]

theorem line_unpowered {s : State} (h : s.power = .unpowered) (i : Nat) : s.line i = none := by
  simp [State.line, h]

/-! ## A pair write that is cut (R60) -/

/-- The writes of a valid `ST.WRTHR` of a channel that exists are the pair write (R136). -/
theorem operationWrites_stWrthr {s : State} {ch : Byte} {on off : Fx} (hch : ch.toNat < s.cfg.nCh)
    (hv : validPair s.cfg on.toInt off.toInt = true) :
    operationWrites (.cmd (encode (.stWrthr ch on off))) s = pairWrites s.cfg ch.toNat on off := by
  have hv' : validPair s.cfg (sext16 on) (sext16 off) = true := hv
  simp [operationWrites, commandWrites_encode, transaction, stWrthr, onChannel_of_lt hch, hv']

/-- A power loss does the same whatever events wait. -/
theorem losePower_withInbox (op : Operation) (k : Nat) (s : State) (es : List Event) :
    losePower op k (s.withInbox es) = (losePower op k s).withInbox es := by
  have hacts : operationActs op (s.withInbox es) = operationActs op s := by cases op <;> rfl
  simp only [losePower, operationWrites_withInbox, hacts]
  rfl

/-- The step of a power loss of the operation in progress, with `k` in its range. -/
theorem step_losePower {s : State} (hc : s.cfg.Wf) (hp : s.power = .powered) {op : Operation} {k : Nat} {es : List Event}
    (hph : s.phase = .boot ↔ op = .boot) (h : s.inbox = .powerLoss op k :: es) (ht : tickCutOk op s = none)
    (hk : k ≤ (operationWrites op s).length) : step s = .next ((losePower op k s).withInbox es) := by
  have ht' : tickCutOk op (s.withInbox es) = none := by cases op <;> exact ht
  rw [step_powerLoss hc hp hph h, powerLoss_eq ht', operationWrites_withInbox, if_pos hk, losePower_withInbox]

/-- The step of a power loss with `k` beyond the writes of the operation in progress (log entry 9). -/
theorem step_powerLoss_refused {s : State} (hc : s.cfg.Wf) (hp : s.power = .powered) {op : Operation} {k : Nat}
    {es : List Event} (hph : s.phase = .boot ↔ op = .boot) (h : s.inbox = .powerLoss op k :: es)
    (ht : tickCutOk op s = none) (hk : (operationWrites op s).length < k) : step s = .refused .powerLossCount := by
  have ht' : tickCutOk op (s.withInbox es) = none := by cases op <;> exact ht
  rw [step_powerLoss hc hp hph h, powerLoss_eq ht', operationWrites_withInbox, if_neg (Nat.not_le.2 hk)]

/-- Without power an event other than `RESET` is refused (log entry 19). -/
theorem step_unpowered_refused {s : State} (hc : s.cfg.Wf) (hp : s.power = .unpowered) {e : Event} {es : List Event}
    (h : s.inbox = e :: es) (he : e ≠ .reset) : step s = .refused .eventWithoutPower := by
  cases e with
  | reset => exact absurd rfl he
  | tick | cmd | powerLoss => simp [step, hc, takeEvent, hp, takeUnpowered, h]

/-- From a power loss, `RESET` and boot reach `RUN`, with the events behind them left waiting. -/
theorem run_powerLoss_reset_boot {s : State} (hc : s.cfg.Wf) (hp : s.power = .powered) {op : Operation} {k : Nat}
    {es : List Event} (hph : s.phase = .boot ↔ op = .boot) (h : s.inbox = .powerLoss op k :: .reset :: es)
    (hes : ∀ k es', es ≠ .powerLoss .boot k :: es') (ht : tickCutOk op s = none) (hk : k ≤ (operationWrites op s).length) :
    core.run 3 s = .next (boot (resetRegisters ((losePower op k s).withInbox es))) := by
  have h1 := step_losePower hc hp hph h ht hk
  have h2 := step_reset (s := (losePower op k s).withInbox (.reset :: es)) hc (.inl rfl) rfl
  have h3 := step_boot (s := resetRegisters ((losePower op k s).withInbox es)) hc rfl rfl hes
  exact (run_succ h1 2).trans ((run_succ h2 1).trans (run_succ h3 0))

/-- `RESET` and boot on an initialised store leave it as it is and load every pair from it, with no check (R222, R223). -/
theorem boot_resetRegisters_of_isInit {s : State} (h : isInit s.cfg s.nv = true) :
    (boot (resetRegisters s)).nv = s.nv ∧ ∀ i < s.cfg.nCh,
      ((boot (resetRegisters s)).chan i).coolOn = storedOn s.cfg s.nv i ∧
      ((boot (resetRegisters s)).chan i).coolOff = storedOff s.cfg s.nv i := by
  have h' : isInit (resetRegisters s).cfg (resetRegisters s).nv = true := h
  refine ⟨boot_nv_of_isInit h', fun i hi => ?_⟩
  rw [chan_boot (by simpa using hi), if_pos h']
  exact ⟨rfl, rfl⟩

end Sys2Proof.Machine

namespace Sys2Proof

open Sys2Proof.Machine

/-! ## The obligations -/

/-- Settles O15, by the five kinds of transaction and the checks that a pair write must pass. -/
theorem nvWritesOfEachCommand : Obligations.NvWritesOfEachCommand := by
  unfold Obligations.NvWritesOfEachCommand
  intro i s
  rw [commandWrites_encode]
  exact ⟨transaction_writes_length i s, _, exec_eq i s, rfl⟩

/-- Settles O22, from what one write does to every address. -/
theorem nvReadsReturnTheLatestWrite : Obligations.NvReadsReturnTheLatestWrite := by
  unfold Obligations.NvReadsReturnTheLatestWrite
  intro m a hm
  exact ⟨fun v b => read_write hm a b v, fun v b => toNat_read_writeField hm a b v,
    fun v => readField_writeField_same hm a v, toNat_readField m a⟩

/-- Settles O23: each write keeps the form, and in that form a cell is listed exactly when its address reads as it. -/
theorem nvMemoryHasOneForm : Obligations.NvMemoryHasOneForm := by
  unfold Obligations.NvMemoryHasOneForm
  exact ⟨fun _ ws hm => wf_applyAll hm ws, fun _ _ hm hn h => mem_ext hm hn h⟩

/-- Settles O24: R9 keeps the marker out of the run of blocks, and the run in the memory. -/
theorem blocksAndMarkerAreApart : Obligations.BlocksAndMarkerAreApart := by
  unfold Obligations.BlocksAndMarkerAreApart
  intro c hc i hi
  refine ⟨fun a hl ha => ⟨wholeBlock_bounded hc hi ha, marker_outside_wholeBlock hc hi hl ha⟩, ?_, ?_, rfl⟩
  · intro j _ hji a hl ha ⟨hl', ha'⟩
    have := wholeBlocks_disjoint c hji
    omega
  · intro a ⟨hl, ha⟩
    have := wf_blockSize hc
    omega

/-- Settles O46: the step is `losePower`; the whole `TICK` of the last clause is the one that it cuts. -/
theorem powerLossLeavesTheFirstWrites : Obligations.PowerLossLeavesTheFirstWrites := by
  unfold Obligations.PowerLossLeavesTheFirstWrites
  intro s op k es hc hp hph h hlanes
  have ht : tickCutOk op s = none := tickCutOk_eq_none hlanes
  refine ⟨fun hk => ⟨_, step_losePower hc hp hph h ht hk, rfl, rfl, rfl, rfl, rfl, line_unpowered rfl, by simp, ?_, ?_⟩,
    step_powerLoss_refused hc hp hph h ht⟩
  · intro hop
    simp [operationActs_of_not_tick s hop]
  · intro sample n u hop hu
    subst hop
    have hrun : s.phase = .run := by
      cases hq : s.phase with
      | run => rfl
      | boot => exact nomatch hph.1 hq
    have htick := step_tick (s := s.withInbox (.tick sample :: es)) hc ⟨hp, hrun⟩ rfl (hlanes sample n rfl).1
    cases htick.symm.trans hu
    exact trace_losePower_tick s sample n k

/-- Settles O48: the first of the two writes puts the new `coolOn` in the block, and boot loads the block as it is. -/
theorem tornPairWriteIsLoadedTorn : Obligations.TornPairWriteIsLoadedTorn := by
  unfold Obligations.TornPairWriteIsLoadedTorn
  intro s ch on off es ⟨hc, _, hm, _⟩ ⟨hp, hph⟩ hinit hch hv h hes
  have hw := operationWrites_stWrthr hch hv
  have hrun := run_powerLoss_reset_boot hc hp (by simp [hph]) h hes rfl (by simp [hw])
  generalize hu : (losePower (.cmd (encode (.stWrthr ch on off))) 1 s).withInbox es = u at hrun
  have hcfg : u.cfg = s.cfg := by rw [← hu]; rfl
  have hnv : u.nv = s.nv.applyAll ((pairWrites s.cfg ch.toNat on off).take 1) := by rw [← hu, ← hw]; rfl
  have hinit' : isInit u.cfg u.nv = true := by rw [hcfg, hnv, isInit_pairWrites hc s.nv hch, hinit]
  obtain ⟨hbootNv, hload⟩ := boot_resetRegisters_of_isInit hinit'
  obtain ⟨hon, hoff⟩ := stored_pairWrites_torn s.cfg hm ch.toNat on off
  rw [hcfg, hnv] at hload
  refine ⟨_, hrun, ⟨rfl, rfl⟩, by rw [hbootNv]; exact hinit', ?_, ?_, fun j hj hne => ?_⟩
  · rw [(hload _ hch).1, hon]
  · rw [(hload _ hch).2, hoff]
  · obtain ⟨hon', hoff'⟩ := stored_pairWrites_other hc s.nv on off 1 hne
    rw [(hload j hj).1, (hload j hj).2, hon', hoff']
    exact ⟨rfl, rfl⟩

/-- Settles O47, by the one event that can be taken. -/
theorem onlyResetHappensWithoutPower : Obligations.OnlyResetHappensWithoutPower := by
  unfold Obligations.OnlyResetHappensWithoutPower
  intro s hc hp
  exact ⟨step_idle hc (.inl hp), fun es h => ⟨_, step_reset hc (.inl hp) h, rfl, rfl, rfl, rfl⟩,
    fun e es h he => step_unpowered_refused hc hp h he⟩

end Sys2Proof
end

section
/-! PROOFS. The command word and its answer (spec/30_encoding.md): encoder and decoder are inverse (R81 to R84), the legal words by
opcode and reserved fields (R82, R84), the order of R85, the response word (R86, R87), and the assembler's operands and shorthands
(R88 to R93). -/

namespace Sys2Proof

/-! ## The words of a row (R82, R84) -/

/-- The fields that a format does not use are 0 in `w` (R82). -/
def Format.ReservedZero (f : Format) (w : Word64) : Prop :=
  match f with
  | .z => chField w = 0 ∧ cField w = 0 ∧ bField w = 0 ∧ aField w = 0
  | .ch => cField w = 0 ∧ bField w = 0 ∧ aField w = 0
  | .ab => chField w = 0 ∧ cField w = 0
  | .abc => chField w = 0
  | .chab => cField w = 0

/-- The word with this opcode that keeps the fields of `w` that a format uses, and is 0 in those it reserves. -/
def Format.packUsed (f : Format) (op : Byte) (w : Word64) : Word64 :=
  match f with
  | .z => packWord op 0 0 0 0
  | .ch => packWord op (chField w) 0 0 0
  | .ab => packWord op 0 0 (bField w) (aField w)
  | .abc => packWord op 0 (cField w) (bField w) (aField w)
  | .chab => packWord op (chField w) 0 (bField w) (aField w)

/-- The opcodes of the rows of a format (R84). -/
def Format.opcodes (f : Format) : List Byte := (opTable.filter fun r => r.format = f).map OpRow.op

theorem selects_iff_reservedZero (r : OpRow) (w : Word64) :
    r.selects w = true ↔ opField w = r.op ∧ r.format.ReservedZero w := selects_iff r w

/-- A word whose reserved fields are 0 is the pack of its opcode and of the fields in use. -/
theorem Format.packUsed_opField {f : Format} {w : Word64} (h : f.ReservedZero w) : f.packUsed (opField w) w = w := by
  cases f with
  | z => obtain ⟨hh, hc, hb, ha⟩ := h; apply word_ext <;> simp [Format.packUsed, hh, hc, hb, ha]
  | ch => obtain ⟨hc, hb, ha⟩ := h; apply word_ext <;> simp [Format.packUsed, hc, hb, ha]
  | ab => obtain ⟨hh, hc⟩ := h; apply word_ext <;> simp [Format.packUsed, hh, hc]
  | abc =>
    have hh : chField w = 0 := h
    apply word_ext <;> simp [Format.packUsed, hh]
  | chab =>
    have hc : cField w = 0 := h
    apply word_ext <;> simp [Format.packUsed, hc]

/-- The command that a row builds from a word encodes to the row's opcode and the fields that the row's format uses. -/
theorem encode_build {r : OpRow} (hr : r ∈ opTable) (w : Word64) : encode (r.build w) = r.format.packUsed r.op w := by
  have key : ∀ q ∈ opTable, encode (q.build w) = q.format.packUsed q.op w := by
    simp [opTable, fixedPointRows, storeRows, adjustRows, accessorRows, encode, Format.packUsed]
  exact key r hr

/-- The command that a selected row builds encodes to the word. -/
theorem encode_build_of_selects {r : OpRow} (hr : r ∈ opTable) {w : Word64} (h : r.selects w = true) :
    encode (r.build w) = w := by
  obtain ⟨hop, hzero⟩ := (selects_iff_reservedZero r w).1 h
  rw [encode_build hr, ← hop, Format.packUsed_opField hzero]

/-- A word selects a row exactly when, for some format, its opcode is one of that format and its reserved fields are 0. -/
theorem exists_selects_iff (w : Word64) :
    (∃ r ∈ opTable, r.selects w = true) ↔ ∃ f : Format, opField w ∈ f.opcodes ∧ f.ReservedZero w := by
  constructor
  · rintro ⟨r, hr, h⟩
    obtain ⟨hop, hzero⟩ := (selects_iff_reservedZero r w).1 h
    exact ⟨r.format, List.mem_map.2 ⟨r, List.mem_filter.2 ⟨hr, decide_eq_true rfl⟩, hop.symm⟩, hzero⟩
  · rintro ⟨f, hop, hzero⟩
    obtain ⟨r, hr, hop⟩ := List.mem_map.1 hop
    obtain ⟨hr, hf⟩ := List.mem_filter.1 hr
    exact ⟨r, hr, (selects_iff_reservedZero r w).2 ⟨hop.symm, of_decide_eq_true hf ▸ hzero⟩⟩

/-- The table of R84 by format. -/
theorem mem_opcodes_iff (f : Format) (op : Byte) :
    op ∈ f.opcodes ↔
      match f with
      | .z => op = 0x10 ∨ op = 0x11
      | .ch => op = 0x12 ∨ op = 0x20 ∨ op = 0x21 ∨ op = 0x22 ∨ op = 0x23 ∨ op = 0x24 ∨ op = 0x25 ∨
          op = 0x30 ∨ op = 0x31 ∨ op = 0x32 ∨ op = 0x33
      | .ab => op = 0x01 ∨ op = 0x02
      | .abc => op = 0x03
      | .chab => op = 0x13 := by
  cases f <;> simp [Format.opcodes, opTable, fixedPointRows, storeRows, adjustRows, accessorRows]

/-- An illegal word fails the mask test of every row (R84, R85). -/
theorem decode_eq_none_iff (w : Word64) : decode w = none ↔ ∀ r ∈ opTable, w &&& r.format.mask ≠ r.matchWord := by
  rw [← not_iff_not, ← ne_eq, decode_ne_none_iff]
  simp [OpRow.selects]

/-- The decoder inverts the encoder, for a word given otherwise. -/
theorem decode_of_encode_eq {i : Instr} {w : Word64} (h : encode i = w) : decode w = some i := h ▸ decode_encode i

end Sys2Proof

namespace Sys2Proof.Machine

/-! ## The answer to a command (R85 to R87) -/

/-- Step 2 of R85, at the level of the command's meaning. -/
theorem exec_badChannel {i : Instr} {ch : Byte} {s : State} (h : i.channel? = some ch) (hn : s.cfg.nCh ≤ ch.toNat) :
    exec i s = .next (s.answered (respond .errBadChannel 0 0 0)) := by
  rw [exec_eq, transaction_badChannel h hn, complete_reply]

/-- The status codes that a legal command can answer (R201). -/
theorem code_mem_of_ne_illegal {st : Status} (h : st ≠ .errIllegal) : st.code ∈ [0x00#8, 0x01#8, 0x02#8, 0x04#8] := by
  cases st with
  | errIllegal => exact absurd rfl h
  | ok | errNotInit | errOutOfRange | errBadChannel => decide

theorem status_eq_ok_iff (st : Status) : st.code = 0x00#8 ↔ st = .ok := by
  cases st <;> decide

/-- The response of every kind of transaction: a status of the table other than `ERR_ILLEGAL`, no reserved flag, and neither flags
nor `V1` on an error. -/
theorem TransactionCase.response_eq {i : Instr} {s : State} {T : Transaction} (h : TransactionCase i s T) :
    ∃ st fl v1 v0, T.response = respond st fl v1 v0 ∧ st ≠ .errIllegal ∧ (st ≠ .ok → fl = 0 ∧ v1 = 0) ∧
      fl.extractLsb' 6 2 = 0#2 := by
  cases h with
  | reply st fl v1 v0 hst herr hfl => exact ⟨st, fl, v1, v0, rfl, hst, herr, hfl⟩
  | overflow | initdef | pair | offset =>
    exact ⟨_, _, _, _, rfl, by decide, fun hne => absurd rfl hne, by decide⟩

/-! ## Temperature operands (R92, R116) -/

/-- Rounding half away from zero is odd (R116). -/
theorem roundFixed_neg (d : Rat) (f : Nat) : roundFixed (-d) f = -roundFixed d f := by
  have hx : -d * 2 ^ f = -(d * 2 ^ f) := neg_mul ..
  rcases lt_trichotomy (d * 2 ^ f) 0 with h | h | h
  · simp [roundFixed, hx, h.le, not_le.2 h]
  · have hhalf : ⌊(1 / 2 : Rat)⌋ = 0 := by norm_num
    simp only [roundFixed, hx, h, neg_zero, le_refl, if_true, zero_add, hhalf]
  · simp [roundFixed, hx, h.le, not_le.2 h]

section toFixed
variable {d : Rat} {f : Nat} {n : Int} (h0 : 0 ≤ d) (hl : n ≤ d * 2 ^ f + 1 / 2) (hu : d * 2 ^ f + 1 / 2 < n + 1)
include h0 hl hu

theorem roundFixed_of_nonneg : roundFixed d f = n := by
  have hx : 0 ≤ d * 2 ^ f := by positivity
  simp only [roundFixed, if_pos hx]
  exact Int.floor_eq_iff.2 ⟨hl, hu⟩

/-- `toFixed` of a display value that is not negative, from the bounds of its rounding (R116). -/
theorem toFixed?_of_nonneg (hn : inrange n = true) : toFixed? d f = some (zext16 n) := by
  simp [toFixed?, roundFixed_of_nonneg h0 hl hu, hn]

theorem toFixed?_neg_of_nonneg (hn : inrange (-n) = true) : toFixed? (-d) f = some (zext16 (-n)) := by
  simp [toFixed?, roundFixed_neg, roundFixed_of_nonneg h0 hl hu, hn]

end toFixed

end Sys2Proof.Machine

namespace Sys2Proof

open Sys2Proof.Machine

/-! ## The obligations -/

/-- Settles O3: the row that an encoding selects builds the command back from it. -/
theorem decodeOfEncodeIsTheCommand : Obligations.DecodeOfEncodeIsTheCommand := by
  unfold Obligations.DecodeOfEncodeIsTheCommand
  exact decode_encode

/-- Settles O4: the row that a word selects fixes its opcode and its reserved fields, and its command holds the others. -/
theorem decodedWordIsTheEncoding : Obligations.DecodedWordIsTheEncoding := by
  unfold Obligations.DecodedWordIsTheEncoding
  intro w i h
  obtain ⟨r, hr, hs, rfl⟩ := row_of_decode h
  exact encode_build_of_selects hr hs

/-- Settles O5: the statement lists, format by format, the opcodes of the format and the fields that it reserves. -/
theorem legalWordsAreThoseWithZeroReservedFields : Obligations.LegalWordsAreThoseWithZeroReservedFields := by
  unfold Obligations.LegalWordsAreThoseWithZeroReservedFields
  intro w op ch c b a
  rw [decode_ne_none_iff, exists_selects_iff]
  constructor
  · rintro ⟨f, hop, hzero⟩
    cases f with
    | ab => exact .inl ⟨(mem_opcodes_iff .ab _).1 hop, hzero⟩
    | abc => exact .inr (.inl ⟨(mem_opcodes_iff .abc _).1 hop, hzero⟩)
    | z => exact .inr (.inr (.inl ⟨(mem_opcodes_iff .z _).1 hop, hzero⟩))
    | ch => exact .inr (.inr (.inr (.inl ⟨(mem_opcodes_iff .ch _).1 hop, hzero⟩)))
    | chab => exact .inr (.inr (.inr (.inr ⟨(mem_opcodes_iff .chab _).1 hop, hzero⟩)))
  · rintro (⟨hop, hzero⟩ | ⟨hop, hzero⟩ | ⟨hop, hzero⟩ | ⟨hop, hzero⟩ | ⟨hop, hzero⟩)
    · exact ⟨.ab, (mem_opcodes_iff .ab _).2 hop, hzero⟩
    · exact ⟨.abc, (mem_opcodes_iff .abc _).2 hop, hzero⟩
    · exact ⟨.z, (mem_opcodes_iff .z _).2 hop, hzero⟩
    · exact ⟨.ch, (mem_opcodes_iff .ch _).2 hop, hzero⟩
    · exact ⟨.chab, (mem_opcodes_iff .chab _).2 hop, hzero⟩

/-- Settles O6: a word selects only rows with its own opcode, and the rows differ in their opcodes. -/
theorem noTwoRowsMatchTheSameWord : Obligations.NoTwoRowsMatchTheSameWord := by
  unfold Obligations.NoTwoRowsMatchTheSameWord
  have hops : opTable.Pairwise fun r q => r.op ≠ q.op := by decide
  refine ⟨by decide, hops.imp fun {r q} hne w hr => Bool.eq_false_iff.2 fun hq => hne ?_⟩
  exact ((selects_iff r w).1 hr).1.symm.trans ((selects_iff q w).1 hq).1

/-- Settles O8, by the step of an illegal and of a legal command word. -/
theorem decodingOrderOfR85 : Obligations.DecodingOrderOfR85 := by
  unfold Obligations.DecodingOrderOfR85
  intro s w es hc hr h
  refine ⟨decode_eq_none_iff w, fun hd => ?_, fun i ch hd hch hn => ?_, fun i hd _ => step_command hc hr h hd⟩
  · exact ⟨_, step_illegal hc hr h hd, isResponse_respond ..⟩
  · exact ⟨_, (step_command hc hr h hd).trans (exec_badChannel (s := s.withInbox es) hch hn), isResponse_respond ..⟩

/-- Settles O12, by the response of the five kinds of transaction. -/
theorem everyResponseWordIsWellFormed : Obligations.EveryResponseWordIsWellFormed := by
  unfold Obligations.EveryResponseWordIsWellFormed
  intro i s
  obtain ⟨st, fl, v1, v0, hw, hst, herr, hfl⟩ := (transaction_case i s).response_eq
  refine ⟨_, respond st fl v1 v0, exec_eq i s, by simp [hw], by simp, by rw [respond_reservedFlags, hfl], ?_, ?_⟩
  · rw [respond_status]
    exact code_mem_of_ne_illegal hst
  · rw [respond_status, respond_flags, respond_v1, ne_eq, status_eq_ok_iff]
    exact herr

/-- Settles O33, by step 2 of R85. -/
theorem commandsOfAbsentChannelsChangeNothing : Obligations.CommandsOfAbsentChannelsChangeNothing := by
  unfold Obligations.CommandsOfAbsentChannelsChangeNothing
  intro i ch s h hn
  refine ⟨_, exec_badChannel h hn, isResponse_respond .., ?_⟩
  rw [commandWrites_encode, transaction_badChannel h hn, reply_writes]

/-- Settles O57: a raw value is tested for the range, a field is taken as it is, and each example is a value of `toFixed`, the two
negative ones by its oddness. -/
theorem temperatureOperandsOfR92 : Obligations.TemperatureOperandsOfR92 := by
  unfold Obligations.TemperatureOperandsOfR92
  refine ⟨fun v f => ⟨fun hv => ?_, fun hv => ?_⟩, fun _ _ => rfl, fun _ _ => rfl, ?_, ?_, ?_, ?_, ?_⟩
  · exact ⟨zext16 v, if_pos (inrange_iff.2 hv), sext16_zext16 hv⟩
  · exact if_neg fun h => by have := inrange_iff.1 h; omega
  · exact toFixed?_of_nonneg (by norm_num) (by norm_num) (by norm_num) (by decide)
  · exact toFixed?_neg_of_nonneg (n := 8) (by norm_num) (by norm_num) (by norm_num) (by decide)
  · exact toFixed?_of_nonneg (by norm_num) (by norm_num) (by norm_num) (by decide)
  · exact toFixed?_of_nonneg (by norm_num) (by norm_num) (by norm_num) (by decide)
  · exact toFixed?_neg_of_nonneg (n := 1) (by norm_num) (by norm_num) (by norm_num) (by decide)

/-- Settles O1: the encodings are computed, and each decoding is that of an encoding. -/
theorem workedEncodingsOfR88 : Obligations.WorkedEncodingsOfR88 := by
  unfold Obligations.WorkedEncodingsOfR88
  have hwrthr : encode (.stWrthr 0 320 288) = 0x1300000001200140#64 := by decide
  have hfadd : encode (.fadd 0xFFFF 1) = 0x010000000001FFFF#64 := by decide
  have hoffset : encode (.getOffset 7) = 0x3307000000000000#64 := by decide
  have hclamp : encode (.fclamp 900 0xFEC0 800) = 0x03000320FEC00384#64 := by decide
  refine ⟨?_, ?_, hwrthr, decode_of_encode_eq hwrthr, hfadd, decode_of_encode_eq hfadd, hoffset, decode_of_encode_eq hoffset,
    hclamp, decode_of_encode_eq hclamp, by decide, by decide⟩
  · exact toFixed?_of_nonneg (n := 320) (by norm_num) (by norm_num) (by norm_num) (by decide)
  · exact toFixed?_of_nonneg (n := 288) (by norm_num) (by norm_num) (by norm_num) (by decide)

/-- Settles O2: five of the words are encodings, and the sixth has `ST.WRTHR`'s opcode with a reserved bit set. -/
theorem familyWordsDecodeAsR84Says : Obligations.FamilyWordsDecodeAsR84Says := by
  unfold Obligations.FamilyWordsDecodeAsR84Says
  exact ⟨decode_of_encode_eq (by decide), decode_of_encode_eq (by decide), decode_of_encode_eq (by decide),
    decode_of_encode_eq (by decide), decode_of_encode_eq (by decide), (decode_eq_none_iff _).2 (by decide)⟩

/-- Settles O58: each shorthand unfolds to its line, and each joined pair of lines to its event. -/
theorem scriptLinesExpandAsR91AndR93Say : Obligations.ScriptLinesExpandAsR91AndR93Say := by
  unfold Obligations.ScriptLinesExpandAsR91AndR93Say
  refine ⟨fun _ _ => rfl, fun c i lane hi => ?_, fun _ _ _ => rfl, fun _ _ => rfl, fun _ => rfl⟩
  refine ⟨_, _, if_pos hi, rfl, by simp, by simp [hi], fun j hj hji => ?_⟩
  rw [List.getElem?_set_ne hji.symm]
  simp [hj]

end Sys2Proof
end

section
/-! PROOFS. The fixed-point unit (spec/40_fixedpoint.md): the meanings of `FADD`, `FCMP` and `FCLAMP` (R111 to R113), rounding half
away from zero and the range of `toFixed` (R116), the display values and the round trips (R115, R117, R118). -/

namespace Sys2Proof.Machine

/-! ## The commands (R111 to R113) -/

section fadd
variable {a b : Fx}

theorem exec_fadd_of_inrange (h : inrange (exactAdd a b) = true) (s : State) :
    exec (.fadd a b) s = .next (s.answered (respond .ok 0 0 (zext16 (exactAdd a b)))) := by
  rw [exec_eq, transaction, fadd, if_pos h, complete_reply]

/-- An overflowing `FADD` answers the free value of its draw, and only the draw counter advances (U1). -/
theorem exec_fadd_of_not_inrange (h : inrange (exactAdd a b) ≠ true) (s : State) :
    exec (.fadd a b) s =
      .next (State.answered { s with serial := s.serial + 1 } (respond .ok Flag.ovf.mask 0 (Config.freeFx s.serial 0))) := by
  rw [exec_eq, transaction, fadd, if_neg h]
  rfl

end fadd

theorem exec_fcmp_of_flag {a b : Fx} {fl : Flag} (h : compareFlag (sext16 a) (sext16 b) = fl) (s : State) :
    exec (.fcmp a b) s = .next (s.answered (respond .ok fl.mask 0 0)) := by
  rw [exec_eq, transaction, fcmp, h, complete_reply]

theorem compareFlag_of_lt {x y : Int} (h : x < y) : compareFlag x y = .lt := if_pos h

@[simp] theorem compareFlag_self (x : Int) : compareFlag x x = .eq := by simp [compareFlag]

theorem compareFlag_of_gt {x y : Int} (h : y < x) : compareFlag x y = .gt := by
  rw [compareFlag, if_neg h.not_gt, if_neg h.ne']

theorem exec_fclamp (v lo hi : Fx) (s : State) :
    exec (.fclamp v lo hi) s = .next (s.answered (respond .ok 0 0 (clamp v lo hi))) := by
  rw [exec_eq, transaction, fclamp, complete_reply]

section clamp
variable {v lo hi : Fx}

theorem clamp_of_lt_lo (h : sext16 v < sext16 lo) : clamp v lo hi = lo := if_pos h

theorem clamp_of_hi_lt (hlo : sext16 lo ≤ sext16 v) (h : sext16 hi < sext16 v) : clamp v lo hi = hi := by
  rw [clamp, if_neg hlo.not_gt, if_pos h]

theorem clamp_of_mem (hlo : sext16 lo ≤ sext16 v) (h : sext16 v ≤ sext16 hi) : clamp v lo hi = v := by
  rw [clamp, if_neg hlo.not_gt, if_neg h.not_gt]

/-- For `lo <= hi` the clamp lies in `[lo, hi]`, and no value of `[lo, hi]` is nearer to `v` (R113). -/
theorem clamp_nearest (h : sext16 lo ≤ sext16 hi) :
    sext16 lo ≤ sext16 (clamp v lo hi) ∧ sext16 (clamp v lo hi) ≤ sext16 hi ∧
      ∀ x, sext16 lo ≤ x → x ≤ sext16 hi → |sext16 (clamp v lo hi) - sext16 v| ≤ |x - sext16 v| := by
  rcases lt_or_ge (sext16 v) (sext16 lo) with hlo | hlo
  · rw [clamp_of_lt_lo hlo]
    exact ⟨le_rfl, h, fun x hx _ => abs_le_abs_of_nonneg (by omega) (by omega)⟩
  rcases lt_or_ge (sext16 hi) (sext16 v) with hhi | hhi
  · rw [clamp_of_hi_lt hlo hhi]
    exact ⟨h, le_rfl, fun x _ hx => abs_le_abs_of_nonpos (by omega) (by omega)⟩
  · rw [clamp_of_mem hlo hhi]
    exact ⟨hlo, hhi, fun x _ _ => by simp⟩

end clamp

/-! ## Rounding half away from zero (R116) -/

section rounding
variable {d : Rat} (f : Nat)

/-- At or above zero a tie goes up: `d * 2^F` is in `[r - 1/2, r + 1/2)`. -/
theorem roundFixed_bounds_of_nonneg (h : 0 ≤ d) :
    0 ≤ roundFixed d f ∧ (roundFixed d f : Rat) - 1 / 2 ≤ d * 2 ^ f ∧ d * 2 ^ f < roundFixed d f + 1 / 2 := by
  have hx : 0 ≤ d * 2 ^ f := by positivity
  have hr : roundFixed d f = ⌊d * 2 ^ f + 1 / 2⌋ := if_pos hx
  have hle := Int.floor_le (d * 2 ^ f + 1 / 2)
  have hlt := Int.lt_floor_add_one (d * 2 ^ f + 1 / 2)
  rw [hr]
  exact ⟨Int.floor_nonneg.2 (by linarith), by linarith, by linarith⟩

/-- Below zero a tie goes down: `d * 2^F` is in `(r - 1/2, r + 1/2]`. -/
theorem roundFixed_bounds_of_nonpos (h : d ≤ 0) :
    roundFixed d f ≤ 0 ∧ (roundFixed d f : Rat) - 1 / 2 < d * 2 ^ f ∧ d * 2 ^ f ≤ roundFixed d f + 1 / 2 := by
  obtain ⟨h0, hl, hu⟩ := roundFixed_bounds_of_nonneg f (neg_nonneg.2 h)
  rw [roundFixed_neg] at h0 hl hu
  push_cast at hl hu
  exact ⟨by omega, by linarith, by linarith⟩

variable (d)

theorem roundFixed_error : |(roundFixed d f : Rat) - d * 2 ^ f| ≤ 1 / 2 := by
  rw [abs_le]
  rcases le_total 0 d with h | h
  · obtain ⟨-, hl, hu⟩ := roundFixed_bounds_of_nonneg f h
    constructor <;> linarith
  · obtain ⟨-, hl, hu⟩ := roundFixed_bounds_of_nonpos f h
    constructor <;> linarith

/-- At a tie the rounded value is the one farther from zero. -/
theorem abs_lt_abs_roundFixed_of_tie (ht : |(roundFixed d f : Rat) - d * 2 ^ f| = 1 / 2) :
    |d * 2 ^ f| < |(roundFixed d f : Rat)| := by
  rcases le_total 0 d with h | h
  · obtain ⟨-, hl, hu⟩ := roundFixed_bounds_of_nonneg f h
    have hx : 0 ≤ d * 2 ^ f := by positivity
    have hup : (roundFixed d f : Rat) - d * 2 ^ f = 1 / 2 :=
      ((abs_eq (by norm_num)).1 ht).resolve_right (by intro; linarith)
    rw [abs_of_nonneg hx]
    exact lt_of_lt_of_le (by linarith) (le_abs_self _)
  · obtain ⟨-, hl, hu⟩ := roundFixed_bounds_of_nonpos f h
    have hx : d * 2 ^ f ≤ 0 := mul_nonpos_of_nonpos_of_nonneg h (by positivity)
    have hdown : (roundFixed d f : Rat) - d * 2 ^ f = -(1 / 2) :=
      ((abs_eq (by norm_num)).1 ht).resolve_left (by intro; linarith)
    rw [abs_of_nonpos hx]
    exact lt_of_lt_of_le (by linarith) (neg_le_abs _)

/-- A bound that is not negative holds of the rounded value exactly below the tie above it. -/
theorem roundFixed_le_iff {n : Int} (hn : 0 ≤ n) : roundFixed d f ≤ n ↔ d * 2 ^ f < n + 1 / 2 := by
  have hn' : (0 : Rat) ≤ n := Int.cast_nonneg hn
  rcases le_total 0 d with h | h
  · have hr : roundFixed d f = ⌊d * 2 ^ f + 1 / 2⌋ := if_pos (by positivity)
    rw [hr, Int.floor_le_iff]
    constructor <;> intro <;> linarith
  · obtain ⟨h0, -, -⟩ := roundFixed_bounds_of_nonpos f h
    have hx : d * 2 ^ f ≤ 0 := mul_nonpos_of_nonpos_of_nonneg h (by positivity)
    exact iff_of_true (h0.trans hn) (by linarith)

/-- A bound that is not positive holds of the rounded value exactly above the tie below it. -/
theorem le_roundFixed_iff {n : Int} (hn : n ≤ 0) : n ≤ roundFixed d f ↔ n - 1 / 2 < d * 2 ^ f := by
  rw [← neg_le_neg_iff, ← roundFixed_neg, roundFixed_le_iff _ _ (neg_nonneg.2 hn)]
  push_cast
  constructor <;> intro <;> linarith

theorem inrange_roundFixed_iff :
    inrange (roundFixed d f) = true ↔ (-32768.5 : Rat) < d * 2 ^ f ∧ d * 2 ^ f < (32767.5 : Rat) := by
  rw [inrange_iff, le_roundFixed_iff _ _ (by norm_num), roundFixed_le_iff _ _ (by norm_num)]
  norm_num

variable {d f}

/-- An integer is its own rounded value. -/
theorem roundFixed_of_int {n : Int} (h : d * 2 ^ f = n) : roundFixed d f = n := by
  have he := roundFixed_error d f
  rw [h, ← Int.cast_sub, ← Int.cast_abs] at he
  have : |roundFixed d f - n| < 1 := by exact_mod_cast he.trans_lt (by norm_num : (1 / 2 : Rat) < 1)
  exact sub_eq_zero.1 (Int.abs_lt_one_iff.1 this)

end rounding

/-! ## `toFixed` and `toDisplay` (R115 to R118) -/

theorem toFixed?_isSome (d : Rat) (f : Nat) : (toFixed? d f).isSome = inrange (roundFixed d f) := by
  cases h : inrange (roundFixed d f) <;> simp [toFixed?, h]

theorem toFixed?_eq_some_iff {d : Rat} {f : Nat} {r : Fx} : toFixed? d f = some r ↔ roundFixed d f = sext16 r := by
  constructor
  · intro h
    unfold toFixed? at h
    split at h
    · next hr => rw [← Option.some.inj h, sext16_zext16 (inrange_iff.1 hr)]
    · cases h
  · intro h
    rw [toFixed?, h, if_pos (inrange_iff.2 (sext16_bounds r)), zext16_sext16]

@[simp] theorem toDisplay_mul_scale (r : Fx) (f : Nat) : toDisplay r f * 2 ^ f = sext16 r :=
  div_mul_cancel₀ _ (by positivity)

/-- The display values are the multiples of the fractional step by the integers of the raw range (R115). -/
theorem exists_toDisplay_eq_iff {d : Rat} {f : Nat} :
    (∃ r : Fx, toDisplay r f = d) ↔ ∃ k : Int, d = k * (1 / 2 ^ f) ∧ -32768 ≤ k ∧ k ≤ 32767 := by
  constructor
  · rintro ⟨r, rfl⟩
    exact ⟨sext16 r, (mul_one_div _ _).symm, sext16_bounds r⟩
  · rintro ⟨k, rfl, hk⟩
    exact ⟨zext16 k, by rw [toDisplay, sext16_zext16 hk, mul_one_div]⟩

/-- The two ends of the raw range, as display values (R115). -/
theorem raw_range_iff_display_range {f : Nat} (hf : f ≤ 15) (k : Int) :
    -(2 ^ (15 - f) : Rat) ≤ k * (1 / 2 ^ f) ∧ k * (1 / 2 ^ f) ≤ (2 ^ (15 - f) : Rat) - 1 / 2 ^ f ↔
      -32768 ≤ k ∧ k ≤ 32767 := by
  have hstep : (0 : Rat) < 1 / 2 ^ f := by positivity
  have hlo : -(2 ^ (15 - f) : Rat) = ((-32768 : Int) : Rat) * (1 / 2 ^ f) := by
    rw [pow_sub₀ _ two_ne_zero hf]
    norm_num
  have hhi : (2 ^ (15 - f) : Rat) - 1 / 2 ^ f = ((32767 : Int) : Rat) * (1 / 2 ^ f) := by
    rw [← neg_neg (2 ^ (15 - f) : Rat), hlo]
    push_cast
    ring
  rw [hlo, hhi, mul_le_mul_iff_left₀ hstep, mul_le_mul_iff_left₀ hstep, Int.cast_le, Int.cast_le]

end Sys2Proof.Machine

namespace Sys2Proof

open Sys2Proof.Machine

/-! ## The obligations -/

/-- Settles O16: the two branches of `FADD` are the two cases of the range of the exact sum. -/
theorem faddAnswersTheExactSum : Obligations.FaddAnswersTheExactSum := by
  unfold Obligations.FaddAnswersTheExactSum
  refine fun a b s => ⟨rfl, fun hl hu => ?_, fun h => ?_⟩
  · have hr : inrange (exactAdd a b) = true := inrange_iff.2 ⟨hl, hu⟩
    exact ⟨_, _, exec_fadd_of_inrange hr s, isResponse_respond .., sext16_zext16 ⟨hl, hu⟩⟩
  · have hr : inrange (exactAdd a b) ≠ true := fun hr => by
      have := inrange_iff.1 hr
      simp only [exactAdd, sext16] at this
      omega
    exact ⟨_, exec_fadd_of_not_inrange hr s, isResponse_respond ..⟩

/-- Settles O17, by the flag of each of the three orders. -/
theorem fcmpComparesSigned : Obligations.FcmpComparesSigned := by
  unfold Obligations.FcmpComparesSigned
  refine fun a b s => ⟨rfl, fun h => ?_, ?_, fun h => ?_⟩
  · exact ⟨_, exec_fcmp_of_flag (compareFlag_of_lt h) s, isResponse_respond ..⟩
  · rintro rfl
    exact ⟨_, exec_fcmp_of_flag (compareFlag_self _) s, isResponse_respond ..⟩
  · exact ⟨_, exec_fcmp_of_flag (compareFlag_of_gt h) s, isResponse_respond ..⟩

/-- Settles O18, by the three cases of the clamp. -/
theorem fclampAnswersTheNearestInRange : Obligations.FclampAnswersTheNearestInRange := by
  unfold Obligations.FclampAnswersTheNearestInRange
  exact fun v lo hi s => ⟨rfl, _, clamp v lo hi, exec_fclamp v lo hi s, isResponse_respond .., clamp_of_lt_lo, clamp_of_hi_lt,
    clamp_of_mem, clamp_nearest⟩

/-- Settles O19: where `toFixed` is in range its value is the rounded value, whose error, ties and sign are those of R116. -/
theorem toFixedRoundsHalfAwayFromZero : Obligations.ToFixedRoundsHalfAwayFromZero := by
  unfold Obligations.ToFixedRoundsHalfAwayFromZero
  refine fun d f => ⟨by rw [toFixed?_isSome, inrange_roundFixed_iff], fun r h => ?_, fun r q hr hq => ?_⟩
  · have hr : r.toInt = roundFixed d f := (toFixed?_eq_some_iff.1 h).symm
    rw [hr]
    exact ⟨roundFixed_error d f, abs_lt_abs_roundFixed_of_tie d f, by rw [toFixed, h, Option.getD_some]⟩
  · calc q.toInt = roundFixed (-d) f := (toFixed?_eq_some_iff.1 hq).symm
      _ = -roundFixed d f := roundFixed_neg d f
      _ = -r.toInt := congrArg _ (toFixed?_eq_some_iff.1 hr)

/-- Settles O20: the error of rounding, scaled back by `2^F`; and a raw value is an integer, which rounds to itself. -/
theorem conversionRoundTrips : Obligations.ConversionRoundTrips := by
  unfold Obligations.ConversionRoundTrips
  refine ⟨fun d f r h => ?_, fun r f => toFixed?_eq_some_iff.2 (roundFixed_of_int (toDisplay_mul_scale r f))⟩
  have hscale : (0 : Rat) < 2 ^ f := by positivity
  rw [pow_succ', ← div_div, le_div_iff₀ hscale]
  calc |toDisplay r f - d| * 2 ^ f = |(toDisplay r f - d) * 2 ^ f| := by rw [abs_mul, abs_of_pos hscale]
    _ = |(roundFixed d f : Rat) - d * 2 ^ f| := by rw [sub_mul, toDisplay_mul_scale, toFixed?_eq_some_iff.1 h]
    _ ≤ 1 / 2 := roundFixed_error d f

/-- Settles O21: the raw range and the range of the display values are the same; at `F = 4` the bounds are computed. -/
theorem displayValuesOfTheOperatingRange : Obligations.DisplayValuesOfTheOperatingRange := by
  unfold Obligations.DisplayValuesOfTheOperatingRange
  have hall : ∀ f : Nat, f ≤ 15 → ∀ d : Rat, (∃ r : Fx, toDisplay r f = d) ↔
      ∃ k : Int, d = k * (1 / 2 ^ f) ∧ -(2 ^ (15 - f) : Rat) ≤ d ∧ d ≤ 2 ^ (15 - f) - 1 / 2 ^ f := fun f hf d => by
    rw [exists_toDisplay_eq_iff]
    refine exists_congr fun k => and_congr_right ?_
    rintro rfl
    exact (raw_range_iff_display_range hf k).symm
  refine ⟨hall, fun d => (hall 4 (by norm_num) d).trans ?_⟩
  norm_num

end Sys2Proof
end

section
/-! PROOFS. The calibration store (spec/41_store.md): the pair check (R132, R135), the meanings of `ST.ISINIT`, `ST.RDTHR`,
`ST.WRTHR` and `ST.INITDEF` (R131, R133, R134, R136), and an initialisation that a power loss cuts (R133). -/

namespace Sys2Proof.Machine

/-! ## The pair check and the marker (R130, R132, R135) -/

/-- The default pair of every configuration passes the pair check (R132). -/
theorem validPair_defaults {c : Cfg} (hc : c.Wf) : validPair c c.defaultOn c.defaultOff = true := by
  have := wf_defaults hc
  exact validPair_iff.2 (by omega)

theorem isInit_iff {c : Cfg} {m : Mem} : isInit c m = true ↔ m.read c.markerAddr = c.markerValue := beq_iff_eq

/-! ## The commands that read the store (R131, R134) -/

/-- The `flags` byte of `ST.ISINIT` (R131). -/
theorem when_init_isInit (c : Cfg) (m : Mem) :
    Flag.init.when (isInit c m) = if m.read c.markerAddr = c.markerValue then 0x20 else 0x00 := by
  rw [Flag.when, mask_init]
  exact if_congr isInit_iff rfl rfl

theorem exec_stIsinit (s : State) :
    exec .stIsinit s = .next (s.answered (respond .ok (Flag.init.when (isInit s.cfg s.nv)) 0 0)) := by
  rw [exec_eq, transaction, stIsinit, complete_reply]

section stRdthr
variable {s : State} {ch : Byte} (hch : ch.toNat < s.cfg.nCh)
include hch

theorem exec_stRdthr_of_isInit (h : isInit s.cfg s.nv = true) : exec (.stRdthr ch) s =
    .next (s.answered (respond .ok 0 (storedOff s.cfg s.nv ch.toNat) (storedOn s.cfg s.nv ch.toNat))) := by
  rw [exec_eq, transaction, stRdthr, onChannel_of_lt hch, if_pos h, complete_reply]

theorem exec_stRdthr_of_not_isInit (h : isInit s.cfg s.nv ≠ true) :
    exec (.stRdthr ch) s = .next (s.answered (respond .errNotInit 0 0 0)) := by
  rw [exec_eq, transaction, stRdthr, onChannel_of_lt hch, if_neg h, complete_reply]

end stRdthr

/-! ## The frame of a completed command, and a committed pair (R136, R154) -/

/-- A command without a draw changes nothing but the registers and the NV memory, and delivers its word. -/
theorem sameOutside_complete {s : State} {T : Transaction} (h : T.serial = s.serial) :
    SameOutside s (s.complete T) T.response :=
  ⟨rfl, rfl, rfl, rfl, rfl, h, rfl⟩

/-- A committed pair reaches the working copies and the block of its channel, and no other register or byte. -/
theorem pairCommitted_commitPair {s : State} (hs : s.Shaped) {i : Nat} (hi : i < s.cfg.nCh) (on off v1 v0 : Fx) :
    PairCommitted s (s.complete (s.commitPair i on off v1 v0)) i on off := by
  obtain ⟨-, hlen, hm, -⟩ := hs
  obtain ⟨hon, hoff⟩ := stored_pairWrites_same s.cfg hm i on off
  exact {
    length_eq := by simp
    chan_eq := by rw [chan_of_set (s := s) rfl (by rwa [hlen]), if_pos rfl]; rfl
    others_eq := fun j hj => chan_of_set_ne (s := s) rfl hj
    stored_on := hon
    stored_off := hoff
    memory_eq := fun a ha => read_applyAll_other s.nv (pairWrites_not_touches ha) }

section stWrthr
variable {s : State} {ch : Byte} {on off : Fx} (hch : ch.toNat < s.cfg.nCh)
include hch

theorem transaction_stWrthr_of_valid (h : validPair s.cfg on.toInt off.toInt = true) :
    transaction (.stWrthr ch on off) s = s.commitPair ch.toNat on off off on := by
  rw [transaction, stWrthr, onChannel_of_lt hch]
  exact if_pos h

theorem transaction_stWrthr_of_not_valid (h : validPair s.cfg on.toInt off.toInt = false) :
    transaction (.stWrthr ch on off) s = s.reply .errOutOfRange 0 0 0 := by
  rw [transaction, stWrthr, onChannel_of_lt hch]
  exact if_neg (Bool.eq_false_iff.1 h)

end stWrthr

/-! ## The initialisation (R133) -/

/-- The writes of block `i` stand at the places `2i` and `2i + 1`. -/
theorem getElem?_blockWrites (c : Cfg) {n i : Nat} (h : i < n) :
    (blockWrites c n)[2 * i]? = some (.field (blockAddr c i) (zext16 c.defaultOn)) ∧
    (blockWrites c n)[2 * i + 1]? = some (.field (blockAddr c i + 2) (zext16 c.defaultOff)) := by
  induction n with
  | zero => exact absurd h (Nat.not_lt_zero i)
  | succ n ih =>
    rw [blockWrites_succ]
    rcases Nat.lt_succ_iff_lt_or_eq.1 h with hlt | rfl
    · rw [List.getElem?_append_left (by simp; omega), List.getElem?_append_left (by simp; omega)]
      exact ih hlt
    · rw [List.getElem?_append_right (by simp), List.getElem?_append_right (by simp)]
      simp [pairWrites]

/-- R133's order of the writes: block by block, `coolOn` field first, and the marker last. -/
theorem getElem?_initWrites (c : Cfg) :
    (∀ i, i < c.nCh →
      (initWrites c)[2 * i]? = some (.field (blockAddr c i) (zext16 c.defaultOn)) ∧
      (initWrites c)[2 * i + 1]? = some (.field (blockAddr c i + 2) (zext16 c.defaultOff))) ∧
    (initWrites c)[2 * c.nCh]? = some (.byte c.markerAddr c.markerValue) := by
  rw [initWrites_eq]
  refine ⟨fun i hi => ?_, ?_⟩
  · rw [List.getElem?_append_left (by simp; omega), List.getElem?_append_left (by simp; omega)]
    exact getElem?_blockWrites c hi
  · rw [List.getElem?_append_right (by simp)]
    simp

/-- The initialisation leaves every byte alone that is neither the marker nor in a block. -/
theorem read_initWrites_other {c : Cfg} {a : Nat} (m : Mem) (hmk : a ≠ c.markerAddr)
    (hb : ∀ i, i < c.nCh → ¬ inBlock c i a) : (m.applyAll (initWrites c)).read a = m.read a := by
  refine read_applyAll_other m fun w hw => Bool.eq_false_iff.2 fun ht => ?_
  rcases initWrites_touches hw ht with ⟨i, hi, hin⟩ | he
  · exact hb i hi hin
  · exact hmk he

/-- A channel after `ST.INITDEF`: its pair is the default pair. -/
theorem chan_stInitdef {s : State} {i : Nat} (hi : i < s.channels.length) : (s.complete (stInitdef s)).chan i =
    (s.chan i).withPair (zext16 s.cfg.defaultOn) (zext16 s.cfg.defaultOff) :=
  chan_of_map (s := s) (f := (·.withPair (zext16 s.cfg.defaultOn) (zext16 s.cfg.defaultOff))) rfl hi

/-- The NV memory after an `ST.INITDEF` that is cut before the marker write: the first block writes have taken effect. -/
theorem nv_losePower_stInitdef {s : State} {k : Nat} (hk : k ≤ 2 * s.cfg.nCh) :
    (losePower (.cmd (encode .stInitdef)) k s).nv = s.nv.applyAll ((blockWrites s.cfg s.cfg.nCh).take k) := by
  rw [losePower_nv, operationWrites, commandWrites_encode, ← take_initWrites hk]
  rfl

end Sys2Proof.Machine

namespace Sys2Proof

open Sys2Proof.Machine

/-! ## The obligations -/

/-- Settles O26: each working pair, block and byte after the initialisation, and its writes by their places. -/
theorem stInitdefInitialisesEveryChannel : Obligations.StInitdefInitialisesEveryChannel := by
  unfold Obligations.StInitdefInitialisesEveryChannel
  rintro s ⟨hc, hlen, hm, -⟩
  obtain ⟨hinit, hblocks⟩ := initWrites_spec hc hm
  obtain ⟨hdon, hdoff⟩ := toInt_defaults hc
  obtain ⟨hplaces, hmarker⟩ := getElem?_initWrites s.cfg
  refine ⟨s.complete (stInitdef s), respond .ok 0 0 0, exec_eq .stInitdef s, isResponse_respond .., sameOutside_complete rfl,
    length_transaction .stInitdef s, fun i hi => ?_, isInit_iff.1 hinit, fun a => read_initWrites_other s.nv,
    initWrites s.cfg, commandWrites_encode .stInitdef s, initWrites_length s.cfg, hplaces, hmarker⟩
  obtain ⟨hon, hoff⟩ := hblocks i hi
  rw [chan_stInitdef (by rwa [hlen])]
  exact ⟨hdon, hdoff, rfl, rfl, rfl, rfl, (congrArg BitVec.toInt hon).trans hdon, (congrArg BitVec.toInt hoff).trans hdoff⟩

/-- Settles O27, by the channel check and the marker. -/
theorem stRdthrReadsTheBlock : Obligations.StRdthrReadsTheBlock := by
  unfold Obligations.StRdthrReadsTheBlock
  refine fun ch s => ⟨rfl, fun hn => ?_, fun hch hmk => ?_, fun hch hmk => ?_⟩
  · exact ⟨_, exec_badChannel rfl hn, isResponse_respond ..⟩
  · exact ⟨_, exec_stRdthr_of_isInit hch (isInit_iff.2 hmk), isResponse_respond ..⟩
  · exact ⟨_, exec_stRdthr_of_not_isInit hch (mt isInit_iff.1 hmk), isResponse_respond ..⟩

/-- Settles O28, by the channel check and the pair check. -/
theorem stWrthrCommitsOrRejects : Obligations.StWrthrCommitsOrRejects := by
  unfold Obligations.StWrthrCommitsOrRejects
  refine fun ch on off s => ⟨rfl, fun hn => ?_, fun hs hch hv => ?_, fun hch hv => ?_⟩
  · exact ⟨_, exec_badChannel rfl hn, isResponse_respond ..⟩
  · rw [exec_eq, commandWrites_encode, transaction_stWrthr_of_valid hch hv]
    exact ⟨_, _, rfl, isResponse_respond .., sameOutside_complete rfl, pairCommitted_commitPair hs hch .., rfl⟩
  · rw [exec_eq, commandWrites_encode, transaction_stWrthr_of_not_valid hch hv]
    exact ⟨_, rfl, isResponse_respond .., rfl⟩

/-- Settles O51: each field of each block is new exactly when its write is among the first `k`. -/
theorem interruptedInitdefLeavesAPrefix : Obligations.InterruptedInitdefLeavesAPrefix := by
  unfold Obligations.InterruptedInitdefLeavesAPrefix
  rintro s t k es ⟨hc, -, hm, -⟩ ⟨hp, hph⟩ hinit hk h hstep
  have hW : (operationWrites (.cmd (encode .stInitdef)) s).length = 2 * s.cfg.nCh + 1 := by
    rw [operationWrites, commandWrites_encode]
    exact initWrites_length s.cfg
  cases (step_losePower hc hp (by simp [hph]) h rfl (by omega)).symm.trans hstep
  obtain ⟨hdon, hdoff⟩ := toInt_defaults hc
  rw [withInbox_nv, nv_losePower_stInitdef hk]
  refine ⟨(isInit_blockWrites hc s.nv k).trans hinit, fun i hi => ?_⟩
  obtain ⟨hon, hoff⟩ := stored_blockWrites hc hm s.cfg.nCh k i
  rw [hon, hoff]
  refine ⟨fun hlt => ?_, fun heq hodd => ?_, fun heq heven => ?_, fun hgt => ?_⟩
  · rw [if_pos (by omega), if_pos (by omega)]
    exact ⟨hdon, hdoff⟩
  · rw [if_pos (by omega), if_neg (by omega)]
    exact ⟨hdon, rfl⟩
  · rw [if_neg (by omega), if_neg (by omega)]
    exact ⟨rfl, rfl⟩
  · rw [if_neg (by omega), if_neg (by omega)]
    exact ⟨rfl, rfl⟩

/-- Settles O25: the one flag of the reply is `INIT`, set by the marker byte. -/
theorem stIsinitAnswersTheMarker : Obligations.StIsinitAnswersTheMarker := by
  unfold Obligations.StIsinitAnswersTheMarker
  refine ⟨by decide, fun s => ⟨_, exec_stIsinit s, ?_⟩⟩
  rw [when_init_isInit]
  exact isResponse_respond ..

/-- Settles O29: strict order between the bounds gives the margin of one unit. -/
theorem validPairIsBoundsAndStrictOrder : Obligations.ValidPairIsBoundsAndStrictOrder := by
  unfold Obligations.ValidPairIsBoundsAndStrictOrder
  refine fun c => ⟨fun on off => validPair_iff, fun on off h => ?_, validPair_defaults⟩
  have := validPair_iff.1 h
  omega

end Sys2Proof
end

section
/-! PROOFS. The channel controller (spec/42_controller.md): the transition function and its consequences along a sequence of
corrected readings (R150, R151), the adjust commands (R153 to R160), the read accessors (R161 to R164), and an adjust step that a
power loss cuts (R154). -/

namespace Sys2Proof.Machine

/-! ## The transition function (R150) -/

section nextAct
variable {st : Act} {s on off : Int}

theorem nextAct_off_eq_on_iff : nextAct .off s on off = .on ↔ on ≤ s := by simp [nextAct]

theorem nextAct_on_eq_off_iff : nextAct .on s on off = .off ↔ s ≤ off := by simp [nextAct]

theorem nextAct_off_of_lt (h : s < on) : nextAct .off s on off = .off := if_neg (not_le.2 h)

theorem nextAct_on_of_lt (h : off < s) : nextAct .on s on off = .on := if_neg (not_le.2 h)

/-- A reading between equal or reversed thresholds changes either state (R151 (c)). -/
theorem nextAct_ne_self (hon : on ≤ s) (hoff : s ≤ off) : nextAct st s on off ≠ st := by
  cases st with
  | off => simp [nextAct_off_eq_on_iff.2 hon]
  | on => simp [nextAct_on_eq_off_iff.2 hoff]

/-- With `on > off`, a reading that leaves a channel ON lies above `coolOff`, whatever the state before. -/
theorem lt_of_nextAct_eq_on (hlt : off < on) (h : nextAct st s on off = .on) : off < s := by
  cases st with
  | off => exact hlt.trans_le (nextAct_off_eq_on_iff.1 h)
  | on => exact not_le.1 fun hs => nomatch h.symm.trans (nextAct_on_eq_off_iff.2 hs)

/-- With `on > off`, a reading that leaves a channel OFF lies below `coolOn`, whatever the state before. -/
theorem lt_of_nextAct_eq_off (hlt : off < on) (h : nextAct st s on off = .off) : s < on := by
  cases st with
  | off => exact not_le.1 fun hs => nomatch h.symm.trans (nextAct_off_eq_on_iff.2 hs)
  | on => exact (nextAct_on_eq_off_iff.1 h).trans_lt hlt

/-- With `on > off`, a second evaluation of the same reading changes nothing. -/
theorem nextAct_nextAct (hlt : off < on) :
    nextAct (nextAct st s on off) s on off = nextAct st s on off := by
  cases h : nextAct st s on off with
  | off => exact nextAct_off_of_lt (lt_of_nextAct_eq_off hlt h)
  | on => exact nextAct_on_of_lt (lt_of_nextAct_eq_on hlt h)

end nextAct

/-! ## Sequences of corrected readings (R151) -/

section along
variable {on off : Int} {rs : List Int}

/-- A state that every reading keeps is the state after each of them. -/
theorem eq_of_mem_actsAlong {st : Act} (h : ∀ r ∈ rs, nextAct st r on off = st) : ∀ a ∈ actsAlong st on off rs, a = st := by
  induction rs with
  | nil => exact List.forall_mem_nil _
  | cons r rs ih =>
    obtain ⟨hr, hrs⟩ := List.forall_mem_cons.1 h
    rw [actsAlong, hr]
    exact List.forall_mem_cons.2 ⟨rfl, ih hrs⟩

theorem changesAlong_eq_zero {st : Act} {as : List Act} (h : ∀ a ∈ as, a = st) : changesAlong st as = 0 := by
  induction as with
  | nil => rfl
  | cons a as ih =>
    obtain ⟨rfl, has⟩ := List.forall_mem_cons.1 h
    simp [changesAlong, ih has]

theorem changesAlong_actsAlong_eq_zero {st : Act} (h : ∀ r ∈ rs, nextAct st r on off = st) :
    changesAlong st (actsAlong st on off rs) = 0 := changesAlong_eq_zero (eq_of_mem_actsAlong h)

/-- ON and OFF are the only states, so a change away from one leads to the other. -/
theorem eq_of_ne_of_ne {a b c : Act} (hb : a ≠ b) (hc : c ≠ a) : c = b :=
  match a, b, c, hb, hc with
  | .off, .on, .on, _, _ => rfl
  | .on, .off, .off, _, _ => rfl

/-- If no later reading moves a channel out of the state `top` once it is there, at most one change follows: the one into `top`.
`R` is the order of the readings. -/
theorem changesAlong_le_one_of_absorbing {R : Int → Int → Prop} {top : Act}
    (habs : ∀ st r r', R r r' → nextAct st r on off = top → nextAct top r' on off = top) (st : Act) {r : Int}
    (h : (r :: rs).Pairwise R) :
    changesAlong (nextAct st r on off) (actsAlong (nextAct st r on off) on off rs) ≤ 1 := by
  induction rs generalizing st r with
  | nil => exact Nat.zero_le 1
  | cons r' rs ih =>
    obtain ⟨hr, hrs⟩ := List.pairwise_cons.1 h
    have hlater := ih (nextAct st r on off) hrs
    rw [actsAlong, changesAlong]
    by_cases hsame : nextAct (nextAct st r on off) r' on off = nextAct st r on off
    · rw [if_pos hsame, Nat.zero_add]
      exact hlater
    · have hbefore : nextAct st r on off ≠ top := fun htop =>
        hsame (by rw [htop]; exact habs st r r' (hr r' List.mem_cons_self) htop)
      have hafter := eq_of_ne_of_ne hbefore hsame
      rw [if_neg hsame, hafter, changesAlong_actsAlong_eq_zero fun q hq =>
        habs _ r' q (List.rel_of_pairwise_cons hrs hq) hafter]

/-- With `on > off`, at most one change along rising readings: once ON, a channel stays ON (R151 (b)). -/
theorem changesAlong_le_one_of_rising (hlt : off < on) (st : Act) {r : Int} (h : (r :: rs).Pairwise (· ≤ ·)) :
    changesAlong (nextAct st r on off) (actsAlong (nextAct st r on off) on off rs) ≤ 1 :=
  changesAlong_le_one_of_absorbing (fun _ _ _ hle hon => nextAct_on_of_lt ((lt_of_nextAct_eq_on hlt hon).trans_le hle)) st h

/-- With `on > off`, at most one change along falling readings: once OFF, a channel stays OFF (R151 (b)). -/
theorem changesAlong_le_one_of_falling (hlt : off < on) (st : Act) {r : Int} (h : (r :: rs).Pairwise (· ≥ ·)) :
    changesAlong (nextAct st r on off) (actsAlong (nextAct st r on off) on off rs) ≤ 1 :=
  changesAlong_le_one_of_absorbing
    (fun _ _ _ hge hoff => nextAct_off_of_lt (hge.trans_lt (lt_of_nextAct_eq_off hlt hoff))) st h

/-- With `on > off`, only the first evaluation of a constant reading can change the state (R151 (b)). -/
theorem changesAlong_replicate_le_one (hlt : off < on) (st : Act) (r : Int) (n : Nat) :
    changesAlong st (actsAlong st on off (List.replicate n r)) ≤ 1 := by
  cases n with
  | zero => exact Nat.zero_le 1
  | succ n =>
    have hrest : changesAlong (nextAct st r on off) (actsAlong (nextAct st r on off) on off (List.replicate n r)) = 0 :=
      changesAlong_actsAlong_eq_zero fun q hq => by rw [List.eq_of_mem_replicate hq, nextAct_nextAct hlt]
    rw [List.replicate_succ, actsAlong, changesAlong, hrest]
    split <;> omega

/-- With `on <= s <= off`, every evaluation of `s` changes the state (R151 (c)). -/
theorem changesAlong_replicate_eq {s : Int} (hon : on ≤ s) (hoff : s ≤ off) (st : Act) (n : Nat) :
    changesAlong st (actsAlong st on off (List.replicate n s)) = n := by
  induction n generalizing st with
  | zero => rfl
  | succ n ih =>
    rw [List.replicate_succ, actsAlong, changesAlong, if_neg (nextAct_ne_self hon hoff), ih, Nat.add_comm]

end along

/-! ## The adjust commands (R153 to R160) -/

/-- A pair of commands that apply one rule to a step and to the negated step moves a value by one signed step. -/
theorem exists_delta_of_mem {s : State} {rule : Int → Transaction} {inc dec : Instr} {x step : Int}
    (hinc : transaction inc s = rule step) (hdec : transaction dec s = rule (-step)) {p : Instr × Int}
    (hp : p ∈ [(inc, x + step), (dec, x - step)]) : ∃ delta, transaction p.1 s = rule delta ∧ p.2 = x + delta := by
  rcases List.mem_pair.1 hp with rfl | rfl
  · exact ⟨step, hinc, rfl⟩
  · exact ⟨-step, hdec, Int.sub_eq_add_neg⟩

section adjust
variable {s : State} {ch : Byte} {delta : Int} (hch : ch.toNat < s.cfg.nCh)
include hch

theorem adjustThr_of_valid {side : Side}
    (h : validPair s.cfg (candOn side delta (s.chan ch.toNat)) (candOff side delta (s.chan ch.toNat)) = true) :
    adjustThr ch side delta s = s.commitPair ch.toNat
      (zext16 (candOn side delta (s.chan ch.toNat))) (zext16 (candOff side delta (s.chan ch.toNat))) 0
      (zext16 (side.pick (candOn side delta (s.chan ch.toNat)) (candOff side delta (s.chan ch.toNat)))) := by
  rw [adjustThr, onChannel_of_lt hch]
  exact if_pos h

theorem adjustThr_of_not_valid {side : Side}
    (h : validPair s.cfg (candOn side delta (s.chan ch.toNat)) (candOff side delta (s.chan ch.toNat)) = false) :
    adjustThr ch side delta s =
      s.reply .errOutOfRange 0 0 (side.pick (s.chan ch.toNat).coolOn (s.chan ch.toNat).coolOff) := by
  rw [adjustThr, onChannel_of_lt hch]
  exact if_neg (Bool.eq_false_iff.1 h)

/-- A valid step of `coolOn` commits it with the retained `coolOff`. -/
theorem adjustThr_on_of_valid
    (h : validPair s.cfg ((s.chan ch.toNat).coolOn.toInt + delta) (s.chan ch.toNat).coolOff.toInt = true) :
    adjustThr ch .on delta s = s.commitPair ch.toNat (zext16 ((s.chan ch.toNat).coolOn.toInt + delta))
      (s.chan ch.toNat).coolOff 0 (zext16 ((s.chan ch.toNat).coolOn.toInt + delta)) := by
  rw [adjustThr_of_valid (side := .on) hch h, candOff, zext16_sext16]
  rfl

/-- A valid step of `coolOff` commits it with the retained `coolOn`. -/
theorem adjustThr_off_of_valid
    (h : validPair s.cfg (s.chan ch.toNat).coolOn.toInt ((s.chan ch.toNat).coolOff.toInt + delta) = true) :
    adjustThr ch .off delta s = s.commitPair ch.toNat (s.chan ch.toNat).coolOn
      (zext16 ((s.chan ch.toNat).coolOff.toInt + delta)) 0 (zext16 ((s.chan ch.toNat).coolOff.toInt + delta)) := by
  rw [adjustThr_of_valid (side := .off) hch h, candOn, zext16_sext16]
  rfl

theorem adjustOfs_of_mem (hlo : s.cfg.ofsMin ≤ (s.chan ch.toNat).offset.toInt + delta)
    (hhi : (s.chan ch.toNat).offset.toInt + delta ≤ s.cfg.ofsMax) :
    adjustOfs ch delta s =
      { s.reply .ok 0 0 (zext16 ((s.chan ch.toNat).offset.toInt + delta)) with
        channels := s.channels.set ch.toNat
          { s.chan ch.toNat with offset := zext16 ((s.chan ch.toNat).offset.toInt + delta) } } := by
  rw [adjustOfs, onChannel_of_lt hch]
  exact if_neg (not_or.2 ⟨not_lt.2 hlo, not_lt.2 hhi⟩)

theorem adjustOfs_of_not_mem
    (h : (s.chan ch.toNat).offset.toInt + delta < s.cfg.ofsMin ∨ s.cfg.ofsMax < (s.chan ch.toNat).offset.toInt + delta) :
    adjustOfs ch delta s = s.reply .errOutOfRange 0 0 (s.chan ch.toNat).offset := by
  rw [adjustOfs, onChannel_of_lt hch]
  exact if_pos h

/-- A threshold adjust makes no NV write, or writes a pair of which one field is the retained working copy. -/
theorem adjustThr_writes_eq (side : Side) :
    (adjustThr ch side delta s).writes = [] ∨ ∃ on off, (adjustThr ch side delta s).writes = pairWrites s.cfg ch.toNat on off ∧
      (on = (s.chan ch.toNat).coolOn ∨ off = (s.chan ch.toNat).coolOff) := by
  cases hv : validPair s.cfg (candOn side delta (s.chan ch.toNat)) (candOff side delta (s.chan ch.toNat)) with
  | false => exact .inl (by rw [adjustThr_of_not_valid hch hv, reply_writes])
  | true =>
    cases side with
    | on => exact .inr ⟨_, _, by rw [adjustThr_on_of_valid hch hv, commitPair_writes], .inr rfl⟩
    | off => exact .inr ⟨_, _, by rw [adjustThr_off_of_valid hch hv, commitPair_writes], .inl rfl⟩

end adjust

/-- Both thresholds of a valid pair are raw temperatures (R9, R135). -/
theorem raw_of_validPair {c : Cfg} (hc : c.Wf) {on off : Int} (h : validPair c on off = true) :
    (-32768 ≤ on ∧ on ≤ 32767) ∧ (-32768 ≤ off ∧ off ≤ 32767) := by
  have := wf_thresholdBounds hc
  have := validPair_iff.1 h
  omega

/-! ## The read accessors (R161 to R164) -/

section accessors
variable {s : State} {ch : Byte} (hch : ch.toNat < s.cfg.nCh)
include hch

theorem exec_getReading : exec (.getReading ch) s = .next (s.answered
    (respond .ok (Flag.valid.when (s.chan ch.toNat).rdValid) 0 (s.chan ch.toNat).reading)) := by
  rw [exec_eq, transaction, getReading, onChannel_of_lt hch, complete_reply]

theorem exec_getCoolon :
    exec (.getCoolon ch) s = .next (s.answered (respond .ok 0 0 (s.chan ch.toNat).coolOn)) := by
  rw [exec_eq, transaction, getCoolon, onChannel_of_lt hch, complete_reply]

theorem exec_getCooloff :
    exec (.getCooloff ch) s = .next (s.answered (respond .ok 0 0 (s.chan ch.toNat).coolOff)) := by
  rw [exec_eq, transaction, getCooloff, onChannel_of_lt hch, complete_reply]

theorem exec_getOffset :
    exec (.getOffset ch) s = .next (s.answered (respond .ok 0 0 (s.chan ch.toNat).offset)) := by
  rw [exec_eq, transaction, getOffset, onChannel_of_lt hch, complete_reply]

end accessors

theorem when_valid (b : Bool) : Flag.valid.when b = if b then 0x10 else 0x00 := by
  rw [Flag.when, mask_valid]

/-! ## A pair write that cannot tear (R154) -/

/-- A pair write that keeps one of the two stored fields leaves, wherever it is cut, the pair before or the pair after. -/
theorem stored_pairWrites_untorn (c : Cfg) {m : Mem} (hm : Mem.Wf m) {i : Nat} {on off : Fx}
    (h : on = storedOn c m i ∨ off = storedOff c m i) (k : Nat) :
    (storedOn c (m.applyAll ((pairWrites c i on off).take k)) i = storedOn c m i ∧
      storedOff c (m.applyAll ((pairWrites c i on off).take k)) i = storedOff c m i) ∨
    (storedOn c (m.applyAll ((pairWrites c i on off).take k)) i = storedOn c (m.applyAll (pairWrites c i on off)) i ∧
      storedOff c (m.applyAll ((pairWrites c i on off).take k)) i = storedOff c (m.applyAll (pairWrites c i on off)) i) := by
  obtain ⟨hon, hoff⟩ := stored_pairWrites_same c hm i on off
  obtain ⟨hon1, hoff1⟩ := stored_pairWrites_torn c hm i on off
  match k with
  | 0 => exact .inl ⟨rfl, rfl⟩
  | 1 =>
    rw [hon1, hoff1, hon, hoff]
    exact h.imp (fun hkept => ⟨hkept, rfl⟩) (fun hkept => ⟨rfl, hkept.symm⟩)
  | k + 2 =>
    rw [List.take_of_length_le (by simp)]
    exact .inr ⟨rfl, rfl⟩

/-- A power loss that `step` takes is within the writes of the command that it cuts. -/
theorem eq_losePower_of_step_cmd {s t : State} (hc : s.cfg.Wf) (hr : s.Running) {w : Word64} {k : Nat} {es : List Event}
    (h : s.inbox = .powerLoss (.cmd w) k :: es) (hstep : step s = .next t) :
    t = (losePower (.cmd w) k s).withInbox es := by
  have hph : s.phase = .boot ↔ Operation.cmd w = .boot := by simp [hr.2]
  rcases Nat.lt_or_ge (operationWrites (.cmd w) s).length k with hk | hk
  · exact nomatch (step_powerLoss_refused hc hr.1 hph h rfl hk).symm.trans hstep
  · cases (step_losePower hc hr.1 hph h rfl hk).symm.trans hstep
    rfl

/-- The four threshold adjusts are `adjustThr` (R155 to R158). -/
theorem exists_adjustThr_of_mem {i : Instr} {ch : Byte}
    (hi : i ∈ [Instr.adjOnInc ch, .adjOnDec ch, .adjOffInc ch, .adjOffDec ch]) (s : State) :
    ∃ side delta, transaction i s = adjustThr ch side delta s := by
  simp only [List.mem_cons, List.not_mem_nil, or_false] at hi
  rcases hi with rfl | rfl | rfl | rfl <;> exact ⟨_, _, rfl⟩

end Sys2Proof.Machine

namespace Sys2Proof

open Sys2Proof.Machine

/-! ## The obligations -/

/-- Settles O30: both commands are `adjustThr` on `coolOn`, with the step as it is and negated. -/
theorem adjOnStepsCoolOnOrRejects : Obligations.AdjOnStepsCoolOnOrRejects := by
  unfold Obligations.AdjOnStepsCoolOnOrRejects
  refine fun ch s hs hch => ⟨rfl, rfl, fun p hp => ?_⟩
  obtain ⟨delta, ht, hx⟩ := exists_delta_of_mem (rule := (adjustThr ch .on · s)) rfl rfl hp
  rw [hx, exec_eq, ht]
  refine ⟨fun hv => ?_, fun hv => ?_⟩
  · rw [adjustThr_on_of_valid hch hv]
    exact ⟨_, _, _, rfl, isResponse_respond .., sext16_zext16 (raw_of_validPair hs.1 hv).1, sameOutside_complete rfl,
      pairCommitted_commitPair hs hch ..⟩
  · rw [adjustThr_of_not_valid (side := .on) hch hv]
    exact ⟨_, rfl, isResponse_respond ..⟩

/-- Settles O31: both commands are `adjustThr` on `coolOff`, with the step as it is and negated. -/
theorem adjOffStepsCoolOffOrRejects : Obligations.AdjOffStepsCoolOffOrRejects := by
  unfold Obligations.AdjOffStepsCoolOffOrRejects
  refine fun ch s hs hch => ⟨rfl, rfl, fun p hp => ?_⟩
  obtain ⟨delta, ht, hx⟩ := exists_delta_of_mem (rule := (adjustThr ch .off · s)) rfl rfl hp
  rw [hx, exec_eq, ht]
  refine ⟨fun hv => ?_, fun hv => ?_⟩
  · rw [adjustThr_off_of_valid hch hv]
    exact ⟨_, _, _, rfl, isResponse_respond .., sext16_zext16 (raw_of_validPair hs.1 hv).2, sameOutside_complete rfl,
      pairCommitted_commitPair hs hch ..⟩
  · rw [adjustThr_of_not_valid (side := .off) hch hv]
    exact ⟨_, rfl, isResponse_respond ..⟩

/-- Settles O32: both commands are `adjustOfs`, with the step as it is and negated. -/
theorem adjOfsStepsTheOffsetOrRejects : Obligations.AdjOfsStepsTheOffsetOrRejects := by
  unfold Obligations.AdjOfsStepsTheOffsetOrRejects
  refine fun ch s hs hch => ⟨rfl, rfl, fun p hp => ?_⟩
  obtain ⟨delta, ht, hx⟩ := exists_delta_of_mem (rule := (adjustOfs ch · s)) rfl rfl hp
  obtain ⟨hc, hlen, -, -⟩ := hs
  rw [hx, exec_eq, ht]
  refine ⟨fun hlo hhi => ?_, fun hout => ?_⟩
  · have hb := wf_offsetBounds hc
    rw [adjustOfs_of_mem hch hlo hhi]
    refine ⟨_, _, _, rfl, isResponse_respond .., sext16_zext16 (by omega), sameOutside_complete rfl, rfl, by simp, ?_,
      fun j hj => chan_of_set_ne (s := s) rfl hj⟩
    rw [chan_of_set (s := s) rfl (by rwa [hlen]), if_pos rfl]
  · rw [adjustOfs_of_not_mem hch hout]
    exact ⟨_, rfl, isResponse_respond ..⟩

/-- Settles O34, by the channel check; on an existing channel each accessor is one reply. -/
theorem accessorsAnswerTheirRegister : Obligations.AccessorsAnswerTheirRegister := by
  unfold Obligations.AccessorsAnswerTheirRegister
  refine fun ch s => ⟨fun p hp => ?_, fun hch => ⟨?_, ?_, ?_, ?_⟩⟩
  · have hrow : encode p.1 = p.2 ++ ch ++ 0x0000#16 ++ 0x0000#16 ++ 0x0000#16 ∧ p.1.channel? = some ch := by
      simp only [List.mem_cons, List.not_mem_nil, or_false] at hp
      rcases hp with rfl | rfl | rfl | rfl <;> exact ⟨rfl, rfl⟩
    exact ⟨hrow.1, fun hn => ⟨_, exec_badChannel hrow.2 hn, isResponse_respond ..⟩⟩
  · rw [← when_valid]
    exact ⟨_, exec_getReading hch, isResponse_respond ..⟩
  · exact ⟨_, exec_getCoolon hch, isResponse_respond ..⟩
  · exact ⟨_, exec_getCooloff hch, isResponse_respond ..⟩
  · exact ⟨_, exec_getOffset hch, isResponse_respond ..⟩

/-- Settles O36: (a) every reading keeps the state; (b) with `on > off` rising readings cannot leave ON, nor falling ones OFF; (c)
no reading between reversed thresholds keeps a state. -/
theorem hysteresisConsequencesOfR151 : Obligations.HysteresisConsequencesOfR151 := by
  unfold Obligations.HysteresisConsequencesOfR151
  refine fun on off => ⟨fun rs h => ?_, fun rs h => ?_, fun hlt st r rs h => ?_, changesAlong_replicate_le_one, ?_⟩
  · exact eq_of_mem_actsAlong fun r hr => nextAct_on_of_lt (h r hr)
  · exact eq_of_mem_actsAlong fun r hr => nextAct_off_of_lt (h r hr)
  · exact h.elim (changesAlong_le_one_of_rising hlt st) (changesAlong_le_one_of_falling hlt st)
  · exact fun st s n hon hoff => changesAlong_replicate_eq hon hoff st n

/-- Settles O49: by coherence the field that the adjust does not move is written as it is stored, so the cut write is the pair
before or the pair after. -/
theorem adjustStepCannotTearABlock : Obligations.AdjustStepCannotTearABlock := by
  unfold Obligations.AdjustStepCannotTearABlock
  intro s t u i ch k es ⟨hc, _, hm, _⟩ hr ⟨_, hcoh⟩ hch hi h hstep hexec
  obtain ⟨hon, hoff⟩ := hcoh _ hch
  obtain ⟨side, delta, hadj⟩ := exists_adjustThr_of_mem hi s
  cases (exec_eq i s).symm.trans hexec
  rw [eq_losePower_of_step_cmd hc hr h hstep, withInbox_nv, losePower_nv, operationWrites, commandWrites_encode, complete_nv,
    hadj]
  rcases adjustThr_writes_eq (delta := delta) hch side with hw | ⟨on, off, hw, hkept⟩
  · rw [hw, List.take_nil]
    exact .inl ⟨rfl, rfl⟩
  · rw [hw]
    rw [hon, hoff] at hkept
    exact stored_pairWrites_untorn s.cfg hm hkept k

/-- Settles O35: each equivalence is the test of one branch, and a reading in the dead band passes neither. -/
theorem transitionTestsThePresentStateOnly : Obligations.TransitionTestsThePresentStateOnly := by
  unfold Obligations.TransitionTestsThePresentStateOnly
  refine fun s on off => ⟨nextAct_off_eq_on_iff, nextAct_on_eq_off_iff, fun hoff hon st => ?_⟩
  cases st with
  | off => exact nextAct_off_of_lt hon
  | on => exact nextAct_on_of_lt hoff

end Sys2Proof
end

section
/-! PROOFS. The control cycle (spec/43_cycle.md): what a `TICK` does to each channel (R180, R182 to R184), that channels are
independent (R181, R185), and the readings whose corrected reading stays in range (R182). -/

namespace Sys2Proof.Machine

/-! ## One channel in a `TICK` (R181 to R183) -/

section lane
variable {s : State} {sample : List Lane} {i : Nat} (hi : i < s.channels.length)
include hi

theorem chan_tick_of_valid {r : Fx} (h : sample[i]? = some (.valid r)) :
    (tick sample s).chan i = stepValid s.serial i r (s.chan i) := by
  rw [chan_tick sample hi, laneAt_of_getElem? h, stepChannel]

theorem chan_tick_of_fault (h : sample[i]? = some .fault) : (tick sample s).chan i = stepFault (s.chan i) := by
  rw [chan_tick sample hi, laneAt_of_getElem? h, stepChannel]

end lane

theorem laneAt_congr {sample sample' : List Lane} {i : Nat} (h : sample[i]? = sample'[i]?) :
    laneAt sample i = laneAt sample' i := by
  simp only [laneAt, List.getD_eq_getElem?_getD, h]

/-- A record after a `TICK` is the step of that record under its own lane, present or absent alike. -/
theorem getElem?_tickChannels (serial : Nat) (sample : List Lane) (chs : List Channel) (i : Nat) :
    (tickChannels serial sample chs)[i]? = chs[i]?.map (stepChannel serial i (laneAt sample i)) := List.getElem?_mapIdx

/-! ## The state after a `TICK` (R180, R184) -/

/-- Where a `TICK` is the next event in `RUN`, the only kind of step is that `TICK`. -/
theorem StepCase.eq_tick {s t : State} (h : StepCase s t) (hr : s.Running) {sample : List Lane} {es : List Event}
    (hin : s.inbox = .tick sample :: es) : t = Machine.tick sample (s.withInbox es) := by
  cases h with
  | tick _ _ h => cases hin.symm.trans h; rfl
  | idle h | reset _ h | illegal _ _ h | command _ _ _ h | powerLoss _ _ _ h => exact nomatch hin.symm.trans h
  | boot _ hph => exact nomatch hph.symm.trans hr.2

/-- The `ACT` events of a `TICK` are appended in index order, with the states after it. -/
theorem trace_tick (s : State) (sample : List Lane) : (tick sample s).trace =
    s.trace ++ (List.range s.channels.length).map (fun i => ⟨i, ((tick sample s).chan i).act⟩) := by
  have hacts := actEvents_eq (tick sample s)
  rw [tick_channels, length_tickChannels] at hacts
  rw [tick_trace, hacts]

/-! ## The window of R182 -/

/-- No offset within bounds takes a reading of the window out of the 16-bit range. -/
theorem inrange_corrected_of_window {c : Cfg} {d : Channel} {r : Fx}
    (hd : c.ofsMin ≤ sext16 d.offset ∧ sext16 d.offset ≤ c.ofsMax)
    (hlo : -32768 - min c.ofsMin 0 ≤ sext16 r) (hhi : sext16 r ≤ 32767 - max c.ofsMax 0) :
    inrange (corrected r d) = true := by
  rw [inrange_iff, corrected]
  omega

end Sys2Proof.Machine

namespace Sys2Proof

open Sys2Proof.Machine

/-! ## The obligations -/

/-- Settles O37: `step` takes the `TICK`, and each clause is what `tick` does to one lane or to the ports. -/
theorem tickStepsEveryChannel : Obligations.TickStepsEveryChannel := by
  unfold Obligations.TickStepsEveryChannel
  intro s sample es hc hlen hr hin hn
  have hlt : ∀ {i lane}, sample[i]? = some lane → i < (s.withInbox es).channels.length := fun h => by
    rw [withInbox_channels, hlen, ← hn]
    exact (List.getElem?_eq_some_iff.1 h).1
  have hlen' : (tick sample (s.withInbox es)).channels.length = s.cfg.nCh := by simp [hlen]
  refine ⟨_, step_tick hc hr hin hn, hr, rfl, rfl, rfl, rfl, hlen', fun i r hlane => ?_, fun i hlane => ?_, ?_,
    fun i hi => ?_⟩
  · rw [chan_tick_of_valid (hlt hlane) hlane]
    exact ⟨rfl, rfl, rfl, rfl, rfl, fun hlo hhi => stepValid_act (inrange_iff.2 ⟨hlo, hhi⟩)⟩
  · exact chan_tick_of_fault (hlt hlane) hlane
  · rw [trace_tick, withInbox_channels, hlen, withInbox_trace]
  · exact line_eq (s := tick sample (s.withInbox es)) hr.1 (hi.trans_eq hlen'.symm)

/-- Settles O38: both steps are ticks, and a record after a tick is a function of the draw, the lane and the record. -/
theorem tickKeepsChannelsIndependent : Obligations.TickKeepsChannelsIndependent := by
  unfold Obligations.TickKeepsChannelsIndependent
  intro s s' t t' sample sample' es es' i hr hr' hin hin' hserial hchan hlane hstep hstep'
  obtain rfl := (step_case hstep).2.eq_tick hr hin
  obtain rfl := (step_case hstep').2.eq_tick hr' hin'
  simp only [tick_channels, getElem?_tickChannels, withInbox_serial, withInbox_channels, hserial, hchan, laneAt_congr hlane]

/-- Settles O39, channel by channel. -/
theorem readingsInTheWindowNeverOverflow : Obligations.ReadingsInTheWindowNeverOverflow := by
  unfold Obligations.ReadingsInTheWindowNeverOverflow
  intro s r hofs hlo hhi c hc
  exact inrange_corrected_of_window (hofs c hc) hlo hhi

end Sys2Proof
end

section
/-! PROOFS. The error model (spec/60_exceptions.md): the order of checks of R208, the absence of any effect of a rejected command
(R203, R206), and the idle machine (R212, R33). -/

namespace Sys2Proof.Machine

/-! ## The status of a command's answer (R86, R208) -/

/-- The status code that a transaction answers: bits 63:56 of its response word (R86). -/
def Transaction.status (T : Transaction) : Byte := T.response.extractLsb' 56 8

@[simp] theorem reply_status (s : State) (st : Status) (fl : Byte) (v1 v0 : Fx) : (s.reply st fl v1 v0).status = st.code :=
  respond_status st fl v1 v0

@[simp] theorem commitPair_status (s : State) (i : Nat) (on off v1 v0 : Fx) : (s.commitPair i on off v1 v0).status = 0x00 :=
  respond_status .ok 0 v1 v0

/-- Check (2) of R208 comes before whatever the command's own rule checks. -/
theorem onChannel_status (s : State) (ch : Byte) {rule : Nat → Transaction} {st : Byte} (h : (rule ch.toNat).status = st) :
    (s.onChannel ch rule).status = if decide (ch.toNat < s.cfg.nCh) = false then 0x04 else st := by
  rcases Nat.lt_or_ge ch.toNat s.cfg.nCh with hch | hch
  · simp [onChannel_of_lt hch, h, hch]
  · simp [onChannel_of_le hch, hch, Status.code]

/-- A rule that commits a pair when `p` holds and otherwise replies answers `OK` exactly when it commits. -/
theorem onChannel_commitPair_status (s : State) (ch : Byte) (p : Prop) [Decidable p] {on off v1 v0 : Fx} {fl : Byte}
    {w1 w0 : Fx} {st : Status} {rule : Nat → Transaction}
    (hrule : rule ch.toNat = if p then s.commitPair ch.toNat on off v1 v0 else s.reply st fl w1 w0) :
    (s.onChannel ch rule).status =
      if decide (ch.toNat < s.cfg.nCh) = false then 0x04 else if p then 0x00 else st.code :=
  onChannel_status s ch (by rw [hrule, apply_ite Transaction.status, commitPair_status, reply_status])

theorem fadd_status (a b : Fx) (s : State) : (fadd a b s).status = 0x00 := by
  rw [fadd]
  split
  · exact reply_status ..
  · exact respond_status ..

section checks
variable (ch : Byte) (s : State)

/-- Checks (2) and (3) of R208. -/
theorem stRdthr_status : (stRdthr ch s).status =
    if decide (ch.toNat < s.cfg.nCh) = false then 0x04
    else if s.nv.read s.cfg.markerAddr = s.cfg.markerValue then 0x00 else 0x01 := by
  refine onChannel_status s ch ?_
  rw [apply_ite Transaction.status, reply_status, reply_status]
  exact if_congr isInit_iff rfl rfl

/-- Checks (2) and (4) of R208 for `ST.WRTHR`. -/
theorem stWrthr_status (on off : Fx) : (stWrthr ch on off s).status =
    if decide (ch.toNat < s.cfg.nCh) = false then 0x04
    else if validPair s.cfg on.toInt off.toInt then 0x00 else 0x02 :=
  onChannel_commitPair_status (st := .errOutOfRange) s ch _ rfl

/-- Checks (2) and (4) of R208 for a threshold adjust. -/
theorem adjustThr_status (side : Side) (delta : Int) : (adjustThr ch side delta s).status =
    if decide (ch.toNat < s.cfg.nCh) = false then 0x04
    else if validPair s.cfg (candOn side delta (s.chan ch.toNat)) (candOff side delta (s.chan ch.toNat)) then 0x00
    else 0x02 :=
  onChannel_commitPair_status (st := .errOutOfRange) s ch _ rfl

/-- Checks (2) and (4) of R208 for an offset adjust. -/
theorem adjustOfs_status (delta : Int) : (adjustOfs ch delta s).status =
    if decide (ch.toNat < s.cfg.nCh) = false then 0x04
    else if (s.chan ch.toNat).offset.toInt + delta ≤ s.cfg.ofsMax ∧
      s.cfg.ofsMin ≤ (s.chan ch.toNat).offset.toInt + delta then 0x00 else 0x02 := by
  refine onChannel_status s ch ?_
  by_cases h : (s.chan ch.toNat).offset.toInt + delta ≤ s.cfg.ofsMax ∧ s.cfg.ofsMin ≤ (s.chan ch.toNat).offset.toInt + delta
  · rw [if_pos h, if_neg (by simp only [sext16]; omega)]
    exact respond_status ..
  · rw [if_neg h, if_pos (by simp only [sext16]; omega)]
    exact reply_status ..

end checks

/-- Every legal command is answered with the status of the first check of R208 that it meets. -/
theorem transaction_status (i : Instr) (s : State) : (transaction i s).status = expectedStatus s (some i) := by
  cases i with
  | fadd a b => exact fadd_status a b s
  | fcmp | fclamp | stIsinit => exact reply_status ..
  | stInitdef => exact respond_status ..
  | stRdthr ch => exact stRdthr_status ch s
  | stWrthr ch on off => exact stWrthr_status ch s on off
  | adjOnInc ch => exact adjustThr_status ch s .on s.cfg.tStep
  | adjOnDec ch => exact adjustThr_status ch s .on (-s.cfg.tStep)
  | adjOffInc ch => exact adjustThr_status ch s .off s.cfg.tStep
  | adjOffDec ch => exact adjustThr_status ch s .off (-s.cfg.tStep)
  | adjOfsInc ch => exact adjustOfs_status ch s s.cfg.ofsStep
  | adjOfsDec ch => exact adjustOfs_status ch s (-s.cfg.ofsStep)
  | getReading ch | getCoolon ch | getCooloff ch | getOffset ch => exact onChannel_status s ch (reply_status ..)

/-- The checks of R208 do not read the events that wait. -/
theorem expectedStatus_withInbox (s : State) (es : List Event) (i : Instr) :
    expectedStatus (s.withInbox es) (some i) = expectedStatus s (some i) := by
  rw [← transaction_status, transaction_withInbox, transaction_status]

/-! ## Rejected commands (R203, R206) -/

/-- Of the five kinds of transaction only a reply can carry an error. -/
theorem TransactionCase.eq_reply_of_error {i : Instr} {s : State} {T : Transaction} (h : TransactionCase i s T)
    (herr : T.status ≠ 0x00) : ∃ st fl v1 v0, T = s.reply st fl v1 v0 := by
  cases h with
  | reply st fl v1 v0 => exact ⟨st, fl, v1, v0, rfl⟩
  | overflow | initdef | pair | offset => exact absurd (respond_status ..) herr

end Sys2Proof.Machine

namespace Sys2Proof

open Sys2Proof.Machine

/-! ## The obligations -/

/-- Settles O9: an illegal word stops at check (1), and a legal command's transaction carries the status of the others. -/
theorem statusFollowsTheOrderOfChecks : Obligations.StatusFollowsTheOrderOfChecks := by
  unfold Obligations.StatusFollowsTheOrderOfChecks
  intro s w es hc hr h
  cases hd : decode w with
  | none => exact ⟨_, _, step_illegal hc hr h hd, rfl, respond_status ..⟩
  | some i =>
    exact ⟨_, _, (step_command hc hr h hd).trans (exec_eq i _), rfl,
      (transaction_status i _).trans (expectedStatus_withInbox s es i)⟩

/-- Settles O13: a transaction whose status is an error is a reply, which writes nothing. -/
theorem errorsHaveNoEffectAtAll : Obligations.ErrorsHaveNoEffectAtAll := by
  unfold Obligations.ErrorsHaveNoEffectAtAll
  refine fun i s => ⟨_, _, exec_eq i s, rfl, fun herr => ?_⟩
  obtain ⟨st, fl, v1, v0, hT⟩ := (transaction_case i s).eq_reply_of_error herr
  rw [hT]
  exact ⟨complete_reply .., reply_writes ..⟩

/-- Settles O52: with no event offered the step is the idle one, and a powered line follows its channel. -/
theorem idleHoldsAllState : Obligations.IdleHoldsAllState := by
  unfold Obligations.IdleHoldsAllState
  intro s hc hr hlen h
  exact ⟨step_idle hc (.inr hr) h, fun i hi => line_eq hr.1 (hlen ▸ hi)⟩

end Sys2Proof
end

section
/-! PROOFS. Reset and hazards (spec/70_reset_and_hazards.md): `RESET` and the boot behind it (R221 to R223), the first `TICK`
after them (R226), a first initialisation that a power loss cuts (R224), the tick at which a committed pair acts (R235), and a
lane that stays faulted (R236). -/

namespace Sys2Proof.Machine

/-- A pair of fields that holds the default pair stands for its integers (R132). -/
theorem toInt_of_eq_defaults {c : Cfg} (hc : c.Wf) {on off : Fx}
    (h : on = zext16 c.defaultOn ∧ off = zext16 c.defaultOff) : on.toInt = c.defaultOn ∧ off.toInt = c.defaultOff := by
  obtain ⟨rfl, rfl⟩ := h
  exact toInt_defaults hc

/-! ## `RESET` and boot (R221 to R223) -/

/-- From a state that takes `RESET`, two steps reach `RUN`, with the events behind it left waiting. -/
theorem run_reset_boot {s : State} (hc : s.cfg.Wf) (hp : s.power = .unpowered ∨ s.phase = .run) {es : List Event}
    (h : s.inbox = .reset :: es) (hes : ∀ k es', es ≠ .powerLoss .boot k :: es') :
    core.run 2 s = .next (boot (resetRegisters (s.withInbox es))) := by
  have hp' : s.power = .unpowered ∨ s.Running := by
    cases hq : s.power with
    | unpowered => exact .inl rfl
    | powered => exact .inr ⟨hq, hp.resolve_left (by simp [hq])⟩
  have h1 := step_reset hc hp' h
  have h2 := step_boot (s := resetRegisters (s.withInbox es)) hc rfl rfl hes
  exact (run_succ h1 1).trans (run_succ h2 0)

theorem length_boot_resetRegisters (s : State) : (boot (resetRegisters s)).channels.length = s.cfg.nCh :=
  (length_boot _).trans (by simp)

/-- The registers that boot leaves as `RESET` has set them (R38, R221). -/
theorem chan_boot_resetRegisters {s : State} {i : Nat} (hi : i < s.cfg.nCh) :
    ((boot (resetRegisters s)).chan i).act = .off ∧ ((boot (resetRegisters s)).chan i).rdValid = false ∧
    ((boot (resetRegisters s)).chan i).offset = zext16 (s.cfg.offsetInit.getD i 0) := by
  rw [unchanged_of_boot Channel.act _ (fun _ _ _ => rfl), unchanged_of_boot Channel.rdValid _ (fun _ _ _ => rfl),
    unchanged_of_boot Channel.offset _ (fun _ _ _ => rfl), chan_resetRegisters hi]
  exact ⟨rfl, rfl, rfl⟩

/-- After `RESET` and boot every actuator line is OFF (R38). -/
theorem line_boot_resetRegisters {s : State} {i : Nat} (hi : i < s.cfg.nCh) :
    (boot (resetRegisters s)).line i = some .off := by
  rw [line_eq rfl (hi.trans_eq (length_boot_resetRegisters s).symm), (chan_boot_resetRegisters hi).1]

/-- `RESET` and boot on a store that is not initialised make the writes of `initializeDefaults`, and every working pair is the
default pair (R222). -/
theorem boot_resetRegisters_of_not_isInit {s : State} (h : isInit s.cfg s.nv = false) :
    (boot (resetRegisters s)).nv = s.nv.applyAll (initWrites s.cfg) ∧ ∀ i < s.cfg.nCh,
      ((boot (resetRegisters s)).chan i).coolOn = zext16 s.cfg.defaultOn ∧
      ((boot (resetRegisters s)).chan i).coolOff = zext16 s.cfg.defaultOff := by
  have h' : isInit (resetRegisters s).cfg (resetRegisters s).nv = false := h
  refine ⟨boot_nv_of_not_isInit h', fun i hi => ?_⟩
  rw [chan_boot (by simpa using hi), if_neg (Bool.eq_false_iff.1 h')]
  exact ⟨rfl, rfl⟩

/-- `RESET` and boot leave the store coherent, whatever it held and wherever its bytes lie (R27, R222). -/
theorem coherent_boot_resetRegisters {s : State} (hc : s.cfg.Wf) (hm : Mem.Wf s.nv) :
    (boot (resetRegisters s)).Coherent := by
  cases hi : isInit s.cfg s.nv with
  | true =>
    obtain ⟨hnv, hload⟩ := boot_resetRegisters_of_isInit hi
    rw [State.Coherent, hnv]
    exact ⟨hi, hload⟩
  | false =>
    obtain ⟨hnv, hpairs⟩ := boot_resetRegisters_of_not_isInit hi
    obtain ⟨hinit, hblocks⟩ := initWrites_spec hc hm
    rw [State.Coherent, hnv]
    exact ⟨hinit, fun i hn =>
      ⟨(hpairs i hn).1.trans (hblocks i hn).1.symm, (hpairs i hn).2.trans (hblocks i hn).2.symm⟩⟩

/-! ## A first initialisation that is cut (R224) -/

/-- The first `2N` writes of the initialisation do not reach the marker. -/
theorem isInit_take_initWrites {c : Cfg} (hc : c.Wf) (m : Mem) {k : Nat} (hk : k ≤ 2 * c.nCh) :
    isInit c (m.applyAll ((initWrites c).take k)) = isInit c m := by
  rw [take_initWrites hk, isInit_blockWrites hc]

/-- Where a cut initialisation has made the marker valid, it has written every block: the marker is written last. -/
theorem stored_eq_defaults_of_isInit_take {c : Cfg} (hc : c.Wf) {m : Mem} (hm : Mem.Wf m) (hinit : isInit c m = false) {k : Nat}
    (h : isInit c (m.applyAll ((initWrites c).take k)) = true) : ∀ i < c.nCh,
      storedOn c (m.applyAll ((initWrites c).take k)) i = zext16 c.defaultOn ∧
      storedOff c (m.applyAll ((initWrites c).take k)) i = zext16 c.defaultOff := by
  rcases Nat.lt_or_ge (2 * c.nCh) k with hk | hk
  · rw [List.take_of_length_le (by simp; omega)]
    exact (initWrites_spec hc hm).2
  · rw [isInit_take_initWrites hc m hk, hinit] at h
    exact nomatch h

/-- `RESET` and boot leave the default pair in every channel, if no valid marker stands over a block that holds another. -/
theorem pairs_boot_resetRegisters_eq_defaults {s : State} (h : isInit s.cfg s.nv = true → ∀ i < s.cfg.nCh,
      storedOn s.cfg s.nv i = zext16 s.cfg.defaultOn ∧ storedOff s.cfg s.nv i = zext16 s.cfg.defaultOff) : ∀ i < s.cfg.nCh,
      ((boot (resetRegisters s)).chan i).coolOn = zext16 s.cfg.defaultOn ∧
      ((boot (resetRegisters s)).chan i).coolOff = zext16 s.cfg.defaultOff := by
  cases hi : isInit s.cfg s.nv with
  | true =>
    intro i hn
    obtain ⟨hon, hoff⟩ := (boot_resetRegisters_of_isInit hi).2 i hn
    exact ⟨hon.trans (h hi i hn).1, hoff.trans (h hi i hn).2⟩
  | false => exact (boot_resetRegisters_of_not_isInit hi).2

/-! ## A committed pair, and ticks (R136, R182, R183) -/

/-- The step of a valid `ST.WRTHR` of a channel that exists: of the registers of that channel the working pair alone is new. -/
theorem step_stWrthr_of_valid {s : State} {ch : Byte} {on off : Fx} {es : List Event} (hs : s.Shaped) (hr : s.Running)
    (hch : ch.toNat < s.cfg.nCh) (hv : validPair s.cfg on.toInt off.toInt = true)
    (h : s.inbox = .cmd (encode (.stWrthr ch on off)) :: es) :
    ∃ t, step s = .next t ∧ t.cfg = s.cfg ∧ t.Running ∧ t.inbox = es ∧ t.channels.length = s.cfg.nCh ∧
      t.chan ch.toNat = { s.chan ch.toNat with coolOn := on, coolOff := off } := by
  have hstep := step_command hs.1 hr h (decode_encode _)
  rw [exec_eq, transaction_withInbox, transaction_stWrthr_of_valid hch hv] at hstep
  have hpair := pairCommitted_commitPair hs hch on off off on
  exact ⟨_, hstep, rfl, hr, rfl, hpair.length_eq.trans hs.2.1, hpair.chan_eq⟩

/-- A valid lane with a corrected reading in range takes the transition from the present state, under the working pair. -/
theorem act_tick_of_valid {s : State} {sample : List Lane} {i : Nat} {r : Fx} (hi : i < s.channels.length)
    (h : sample[i]? = some (.valid r)) (hr : inrange (r.toInt + (s.chan i).offset.toInt) = true) :
    ((tick sample s).chan i).act =
      nextAct (s.chan i).act (r.toInt + (s.chan i).offset.toInt) (s.chan i).coolOn.toInt (s.chan i).coolOff.toInt := by
  rw [chan_tick_of_valid hi h]
  exact stepValid_act hr

/-- Ticks that all fault lane `i` do to channel `i` what one of them does: a second fault changes nothing more. -/
theorem run_ticks_of_fault (samples : List (List Lane)) {s : State} {i : Nat} {es : List Event} (hc : s.cfg.Wf)
    (hlen : s.channels.length = s.cfg.nCh) (hr : s.Running) (hi : i < s.cfg.nCh)
    (hf : ∀ sample ∈ samples, sample.length = s.cfg.nCh ∧ sample[i]? = some .fault)
    (h : s.inbox = samples.map Event.tick ++ es) :
    ∃ t : State, core.run samples.length s = .next t ∧ t.Running ∧ t.inbox = es ∧
      ((samples = [] ∧ t.chan i = s.chan i) ∨ t.chan i = stepFault (s.chan i)) := by
  induction samples generalizing s with
  | nil => exact ⟨s, rfl, hr, h, .inl ⟨rfl, rfl⟩⟩
  | cons sample samples ih =>
    obtain ⟨hn, hfault⟩ := hf sample (by simp)
    have hstep := step_tick hc hr h hn
    have hchan := chan_tick_of_fault (s := s.withInbox (samples.map Event.tick ++ es)) (hlen.symm ▸ hi) hfault
    obtain ⟨t, hrun, hrt, hin, ht⟩ := ih (s := tick sample (s.withInbox (samples.map Event.tick ++ es))) hc
      (by simpa using hlen) hr hi (fun x hx => hf x (by simp [hx])) rfl
    rw [hchan] at ht
    exact ⟨t, (run_succ hstep _).trans hrun, hrt, hin, .inr (ht.elim And.right id)⟩

end Sys2Proof.Machine

namespace Sys2Proof

open Sys2Proof.Machine

/-! ## The obligations -/

/-- Settles O40: the command commits the pair to the working copies and leaves `act` alone; the tick then judges by them. -/
theorem committedThresholdsActAtTheNextTick : Obligations.CommittedThresholdsActAtTheNextTick := by
  unfold Obligations.CommittedThresholdsActAtTheNextTick
  intro s ch on off r sample es hs hr hch hv h hn hlane hrange
  obtain ⟨t, hcmd, hcfg, hrt, hin, hlen, hchan⟩ := step_stWrthr_of_valid hs hr hch hv h
  have htick := step_tick (hcfg ▸ hs.1) hrt hin (hn.trans (congrArg Cfg.nCh hcfg.symm))
  refine ⟨t, _, hcmd, by rw [hchan], htick, ?_⟩
  rw [act_tick_of_valid (s := t.withInbox es) (hch.trans_eq hlen.symm) hlane (by rwa [withInbox_chan, hchan]), withInbox_chan,
    hchan]

/-- Settles O41: any number of faults leaves the channel as one does, but for `rdValid`. -/
theorem faultedChannelHoldsForEver : Obligations.FaultedChannelHoldsForEver := by
  unfold Obligations.FaultedChannelHoldsForEver
  intro samples s i es hc hlen hr hi hf h
  obtain ⟨t, hrun, hrt, hin, ht⟩ := run_ticks_of_fault samples hc hlen hr hi hf h
  refine ⟨t, hrun, hrt, hin, ?_⟩
  rcases ht with ⟨hnil, ht⟩ | ht
  · rw [ht]
    exact ⟨rfl, rfl, rfl, rfl, rfl, fun hne => absurd hnil hne⟩
  · rw [ht]
    exact ⟨rfl, rfl, rfl, rfl, rfl, fun _ => rfl⟩

/-- Settles O43: the registers by `RESET`, the pairs and the store by the marker that boot finds. -/
theorem resetAndBootAsR221AndR222 : Obligations.ResetAndBootAsR221AndR222 := by
  unfold Obligations.ResetAndBootAsR221AndR222
  intro s es hc hm hp h hes
  refine ⟨_, run_reset_boot hc hp h hes, ⟨rfl, rfl⟩, rfl, rfl, rfl, rfl, length_boot_resetRegisters _, fun i hi => ?_,
    fun hmk => ?_, fun hmk => ?_⟩
  · obtain ⟨hact, hvalid, hofs⟩ := chan_boot_resetRegisters (s := s.withInbox es) hi
    exact ⟨hact, line_boot_resetRegisters (s := s.withInbox es) hi, hvalid, by rw [hofs]; exact toInt_offsetInit hc hi⟩
  · exact boot_resetRegisters_of_isInit (s := s.withInbox es) (isInit_iff.2 hmk)
  · obtain ⟨hnv, hpairs⟩ := boot_resetRegisters_of_not_isInit (s := s.withInbox es)
      (Bool.eq_false_iff.2 (mt isInit_iff.1 hmk))
    obtain ⟨hinit, hblocks⟩ := initWrites_spec hc hm
    rw [hnv]
    refine ⟨isInit_iff.1 hinit, fun i hi => ?_, fun a => read_initWrites_other s.nv⟩
    obtain ⟨hon, hoff⟩ := toInt_of_eq_defaults hc (hpairs i hi)
    exact ⟨hon, hoff, toInt_of_eq_defaults hc (hblocks i hi)⟩

/-- Settles O44: the tick finds every channel OFF, and from OFF only the test against `coolOn` is made. -/
theorem firstTickAfterBootStartsFromOff : Obligations.FirstTickAfterBootStartsFromOff := by
  unfold Obligations.FirstTickAfterBootStartsFromOff
  intro s sample es i r hc hm hp h hn hlane
  have hi : i < s.cfg.nCh := hn ▸ (List.getElem?_eq_some_iff.1 hlane).1
  obtain ⟨t, hrun, hrt, hin, hcfg, -, -, hlen, hregs, -⟩ := resetAndBootAsR221AndR222 s _ hc hm hp h (by simp)
  have htick := step_tick (hcfg ▸ hc) hrt hin (hn.trans (congrArg Cfg.nCh hcfg.symm))
  have hlt : i < (t.withInbox es).channels.length := hi.trans_eq hlen.symm
  have hchan := chan_tick_of_valid hlt hlane
  refine ⟨t, _, hrun, htick, fun j hj => ?_, by rw [hchan, stepValid], by rw [hchan, stepValid], fun hr => ?_⟩
  · obtain ⟨-, hline, hvalid, -⟩ := hregs j hj
    exact ⟨hline, hvalid⟩
  · rw [act_tick_of_valid hlt hlane hr, withInbox_chan, (hregs i hi).1]
    exact nextAct_off_eq_on_iff

/-- Settles O50: the marker, written last, is valid only once every block holds the default pair; until then boot starts over. -/
theorem firstInitialisationIsRestartable : Obligations.FirstInitialisationIsRestartable := by
  unfold Obligations.FirstInitialisationIsRestartable
  intro s es hc hm hp hph
  refine ⟨fun hinit => if_pos hinit, fun hinit => ?_⟩
  have hW : bootWrites s = initWrites s.cfg := if_neg (Bool.eq_false_iff.1 hinit)
  have hlen : (operationWrites .boot s).length = 2 * s.cfg.nCh + 1 := (congrArg List.length hW).trans (initWrites_length _)
  refine ⟨hlen, fun k h hes => ?_⟩
  have hph' : s.phase = .boot ↔ Operation.boot = .boot := iff_of_true hph rfl
  have hnv : (losePower .boot k s).nv = s.nv.applyAll ((initWrites s.cfg).take k) := hW ▸ losePower_nv .boot k s
  refine ⟨fun hk => ?_, fun hk => ?_, fun hk => ?_⟩
  · refine ⟨_, step_losePower hc hp hph' h rfl (by omega), ?_⟩
    rw [withInbox_nv, hnv, isInit_take_initWrites hc _ hk, hinit]
  · refine ⟨_, step_losePower hc hp hph' h rfl (by omega), ?_⟩
    rw [withInbox_nv, hnv, List.take_of_length_le (by simp [hk])]
    obtain ⟨hmk, hblocks⟩ := initWrites_spec hc hm
    exact ⟨hmk, fun i hi => toInt_of_eq_defaults hc (hblocks i hi)⟩
  · have hrun := run_powerLoss_reset_boot hc hp hph' h hes rfl (by omega)
    have hblocks := stored_eq_defaults_of_isInit_take hc hm hinit (k := k)
    rw [← hnv] at hblocks
    have hpairs := pairs_boot_resetRegisters_eq_defaults (s := (losePower .boot k s).withInbox es) hblocks
    exact ⟨_, hrun, ⟨rfl, rfl⟩, coherent_boot_resetRegisters hc (wf_applyAll hm _), fun i hi =>
      toInt_of_eq_defaults hc (hpairs i hi)⟩

end Sys2Proof
end
